-- ==== Sys2Proof/Word.lean ====
section
/-! DEFINITION. The widths of the machine's values (spec 00_scope.md R6, 40_datapath_primitives.md R71). A value
carries no sign: its unsigned view is `toNat`, its two's-complement view `toInt` (00_scope.md R9). -/

namespace Sys2Proof

/-- A general register, a memory word, `pc`, `ir`, an instruction: `XLEN` = 16 bits (R6). -/
abbrev Word := BitVec 16

/-- The 8-bit value an OUT trap emits (45_trap.md R110). -/
abbrev Byte := BitVec 8

/-- A register field: a 3-bit unsigned index, all 8 values legal (30_encoding.md R62). -/
abbrev RegIdx := BitVec 3

/-- The condition-code register, or a BR mask: three bits N, Z, P, most significant first (10_state.md R23,
30_encoding.md R53). -/
abbrev CC := BitVec 3

end Sys2Proof
end

