-- ==== Sys2Proof/Syntax.lean ====
section
/-! DEFINITION. The instructions: one constructor for each row of spec/opcode_table.json, its arguments the fields of
30_encoding.md R53. Bits that belong to no field (R64) are no part of an instruction. -/

namespace Sys2Proof

inductive Instr where
  /-- BR, format B (30_encoding.md R54): the mask n, z, p and the offset. -/
  | br (nzp : CC) (pcOffset9 : BitVec 9)
  /-- ADD, register mode, format R (R55). -/
  | addReg (dr sr1 sr2 : RegIdx)
  /-- ADD, immediate mode, format I (R56). -/
  | addImm (dr sr1 : RegIdx) (imm5 : BitVec 5)
  /-- LD, format L (R57). -/
  | ld (dr : RegIdx) (pcOffset9 : BitVec 9)
  /-- AND, register mode, format R (R55). -/
  | andReg (dr sr1 sr2 : RegIdx)
  /-- AND, immediate mode, format I (R56). -/
  | andImm (dr sr1 : RegIdx) (imm5 : BitVec 5)
  /-- NOT, format N (R58). -/
  | not (dr sr : RegIdx)
  /-- TRAP, format T (R59). -/
  | trap (vector : BitVec 8)
  /-- Any word with opcode 0011: not an instruction (R65); so the nine below, each with its own opcode. -/
  | illegal0011
  | illegal0100
  | illegal0110
  | illegal0111
  | illegal1000
  | illegal1010
  | illegal1011
  | illegal1100
  | illegal1101
  | illegal1110
deriving DecidableEq, Repr

end Sys2Proof
end

