-- ==== Sys2Proof/WellFormed.lean ====
section
/-! DEFINITION. Which terms of `Instr` are instructions of the machine. The field types leave no other check: within
the six opcodes every value of every field is legal (30_encoding.md R62, R65), so an operand out of range cannot be
written down. The ten rows of the opcode table that stand for unlisted opcodes are "not an instruction" (R65). -/

namespace Sys2Proof

/-- The instruction is one of BR, ADD, LD, AND, NOT, TRAP (00_scope.md R2, 30_encoding.md R65). -/
def Instr.wellFormed : Instr → Bool
  | .br _ _ => true
  | .addReg _ _ _ => true
  | .addImm _ _ _ => true
  | .ld _ _ => true
  | .andReg _ _ _ => true
  | .andImm _ _ _ => true
  | .not _ _ => true
  | .trap _ => true
  | .illegal0011 => false
  | .illegal0100 => false
  | .illegal0110 => false
  | .illegal0111 => false
  | .illegal1000 => false
  | .illegal1010 => false
  | .illegal1011 => false
  | .illegal1100 => false
  | .illegal1101 => false
  | .illegal1110 => false

abbrev Instr.WellFormed (i : Instr) : Prop := i.wellFormed = true

end Sys2Proof
end

