-- ==== Sys2Proof/Decode.lean ====
section
/-! DEFINITION. The decoder, total on 16-bit words (30_encoding.md R60), and the encoder written from the same formats
(R54 to R59). An unlisted opcode is rejected by the name of its row (`illegal0011` ...), never read as a neighbour. -/

namespace Sys2Proof

/-! The fields of a word, `ir[hi:lo]` of 30_encoding.md R53. -/

/-- `ir[15:12]` (R52). -/
def opcodeOf (w : Word) : BitVec 4 := w.extractLsb' 12 4

/-- `ir[11:9]`, the mask of BR. -/
def nzpOf (w : Word) : CC := w.extractLsb' 9 3

/-- `ir[11:9]`, the destination register: the same bits as `nzpOf`, under other opcodes. -/
def drOf (w : Word) : RegIdx := w.extractLsb' 9 3

/-- `ir[8:6]`: `sr1` of ADD and AND, `sr` of NOT. -/
def sr1Of (w : Word) : RegIdx := w.extractLsb' 6 3

/-- `ir[5]`, the mode bit of ADD and AND (R63): false for a register, true for the immediate. -/
def modeOf (w : Word) : Bool := w.getLsbD 5

/-- `ir[2:0]`. -/
def sr2Of (w : Word) : RegIdx := w.extractLsb' 0 3

/-- `ir[4:0]`. -/
def imm5Of (w : Word) : BitVec 5 := w.extractLsb' 0 5

/-- `ir[8:0]`. -/
def pcOffset9Of (w : Word) : BitVec 9 := w.extractLsb' 0 9

/-- `ir[7:0]`. -/
def vectorOf (w : Word) : BitVec 8 := w.extractLsb' 0 8

/-- The source document's `substring(o, k)`: `k` bits from offset `o`, counted from the most significant bit
(00_scope.md R8, 40_datapath_primitives.md R78). Laws/Decode.lean shows that each field above is the document's. -/
def substring (w : Word) (o k : Nat) : BitVec k := w.extractLsb' (16 - o - k) k

/-- The opcode map (30_encoding.md R60), with the mode bit choosing the form of ADD and AND (R63). Bits outside the
row's fields are not read (R64). -/
def decode (w : Word) : Instr :=
  match (opcodeOf w).toFin with
  | 0b0000 => .br (nzpOf w) (pcOffset9Of w)
  | 0b0001 => if modeOf w then .addImm (drOf w) (sr1Of w) (imm5Of w) else .addReg (drOf w) (sr1Of w) (sr2Of w)
  | 0b0010 => .ld (drOf w) (pcOffset9Of w)
  | 0b0011 => .illegal0011
  | 0b0100 => .illegal0100
  | 0b0101 => if modeOf w then .andImm (drOf w) (sr1Of w) (imm5Of w) else .andReg (drOf w) (sr1Of w) (sr2Of w)
  | 0b0110 => .illegal0110
  | 0b0111 => .illegal0111
  | 0b1000 => .illegal1000
  | 0b1001 => .not (drOf w) (sr1Of w)
  | 0b1010 => .illegal1010
  | 0b1011 => .illegal1011
  | 0b1100 => .illegal1100
  | 0b1101 => .illegal1101
  | 0b1110 => .illegal1110
  | 0b1111 => .trap (vectorOf w)
  | ⟨_ + 16, h⟩ => absurd h (by omega)

/-- The word of an instruction (R54 to R59). Bits of no field are written as the spec's notation writes them (R68):
ones in NOT, zeros elsewhere; any filler decodes the same (R64; log 10). -/
def encode : Instr → Word
  | .br nzp off => 0b0000#4 ++ nzp ++ off
  | .addReg dr sr1 sr2 => 0b0001#4 ++ dr ++ sr1 ++ 0b000#3 ++ sr2
  | .addImm dr sr1 imm => 0b0001#4 ++ dr ++ sr1 ++ 0b1#1 ++ imm
  | .ld dr off => 0b0010#4 ++ dr ++ off
  | .andReg dr sr1 sr2 => 0b0101#4 ++ dr ++ sr1 ++ 0b000#3 ++ sr2
  | .andImm dr sr1 imm => 0b0101#4 ++ dr ++ sr1 ++ 0b1#1 ++ imm
  | .not dr sr => 0b1001#4 ++ dr ++ sr ++ 0b111111#6
  | .trap vector => 0b1111#4 ++ 0b0000#4 ++ vector
  | .illegal0011 => 0x3000#16
  | .illegal0100 => 0x4000#16
  | .illegal0110 => 0x6000#16
  | .illegal0111 => 0x7000#16
  | .illegal1000 => 0x8000#16
  | .illegal1010 => 0xA000#16
  | .illegal1011 => 0xB000#16
  | .illegal1100 => 0xC000#16
  | .illegal1101 => 0xD000#16
  | .illegal1110 => 0xE000#16

/-- The bits of a word that the decoder reads for this instruction: all of them but the unused bits of R55, R58, R59
and the 12 low bits of an unlisted opcode (R65). -/
def usedBits : Instr → Word
  | .br _ _ => 0xFFFF#16
  | .addReg _ _ _ => 0xFFE7#16
  | .addImm _ _ _ => 0xFFFF#16
  | .ld _ _ => 0xFFFF#16
  | .andReg _ _ _ => 0xFFE7#16
  | .andImm _ _ _ => 0xFFFF#16
  | .not _ _ => 0xFFC0#16
  | .trap _ => 0xF0FF#16
  | .illegal0011 => 0xF000#16
  | .illegal0100 => 0xF000#16
  | .illegal0110 => 0xF000#16
  | .illegal0111 => 0xF000#16
  | .illegal1000 => 0xF000#16
  | .illegal1010 => 0xF000#16
  | .illegal1011 => 0xF000#16
  | .illegal1100 => 0xF000#16
  | .illegal1101 => 0xF000#16
  | .illegal1110 => 0xF000#16

/-- The instruction the decoder reads from bits numbered as spec/opcode_table.json numbers them. Every instruction is
one 16-bit word (30_encoding.md R51), so more than 16 bits are no instruction, and the bits above `nbits` are zero. -/
def decodeTableWord (nbits w : Nat) : Option Instr :=
  if nbits ≤ 16 ∧ w < 2 ^ nbits then some (decode (BitVec.ofNat 16 w)) else none

end Sys2Proof
end

