-- ==== Sys2Proof/Config.lean ====
section
/-! DEFINITION. What is fixed for the machine (spec 00_scope.md R6: every size is given, none left to an
implementation), and the one value the spec leaves free (what an inspection reads during a run). -/

namespace Sys2Proof

/-- `MEM_WORDS`: words of memory, addresses 0 to 49 (R6, 20_memory.md R35). -/
@[simp] def Config.memWords : Nat := 50

/-- `PROG_MAX`: the largest program the host may place (R6, 50_interfaces.md R116). -/
@[simp] def Config.progMax : Nat := 49

/-- `TRAP_OUT`: the one trap vector that does not halt (R6, 45_trap.md R110). -/
@[simp] def Config.trapOut : BitVec 8 := 0x21#8

/-- `CC_RESET`: 000 (10_state.md R25, the spec's decision D1; log 1). -/
@[simp] def Config.ccReset : CC := 0b000#3

/-- What the `inspect` port carries (50_interfaces.md R121): the registers, the 50 memory words in address order,
`pc`, `ir` and `cc`. -/
structure Snapshot where
  regs : Vector Word 8
  mem : List Word
  pc : Word
  ir : Word
  cc : CC
deriving DecidableEq, Repr, Inhabited

/-- The free value: what the host's `n`-th inspection reads while the engine is running. The spec gives it no value
(50_interfaces.md R121, 93_implementation_defined.md U13), so it has no body here and nothing can be proved of it
(log 13). -/
opaque Config.midRunInspection : Nat → Snapshot

end Sys2Proof
end

