-- ==== Sys2Proof/Machine/State.lean ====
section
/-! DEFINITION. The state of the machine: the closed list of 10_state.md R15, every element with its reset value
(R32). -/

namespace Sys2Proof.Machine

/-- The fatal errors a run can raise (60_exceptions.md R125). -/
inductive Fault where
  /-- A memory access outside 0..49: the fetch of any step, or LD (R126). As an outcome of `step` it says that the
  machine had already stopped with this error (R131; log 5). Safe: no next state is claimed. -/
  | invalidAddressError
  /-- The opcode fetched is none of the six (R127). As an outcome of `step`, as above. Safe. -/
  | unsupportedOpcodeError
deriving DecidableEq, Repr

/-- Reasons for which the model itself would give no meaning. -/
inductive Refusal where
  /-- An instruction whose arm of `exec` has no meaning yet. No arm raises it: all are modelled. Safe. -/
  | notModelled (mnemonic : String)
deriving DecidableEq, Repr

/-- The run state (10_state.md R28; the spec's decision D6, log 6). -/
inductive RunState where
  | idle
  | running
  | halted
  | faulted (e : Fault)
deriving DecidableEq, Repr

/-- The memory as plain data: cells of a byte each, the word at address `a` being the cells `2 * a` (its low half) and
`2 * a + 1` (log 14). The form is `Memory.wf` (Ops.lean); an unlisted cell reads as `Memory.unlisted`. -/
abbrev Memory := List Host.Cell

/-- What an unlisted cell reads as: memory is reset to zero (10_state.md R27). -/
@[simp] def Memory.unlisted : BitVec 8 := 0x00#8

structure State where
  /-- General registers `x[0]` to `x[7]` (R16). -/
  regs : Vector Word 8
  /-- Program counter, a word address (R19). -/
  pc : Word
  /-- Instruction register: the word last fetched (R22). -/
  ir : Word
  /-- Condition codes: `cc[2]` = N, `cc[1]` = Z, `cc[0]` = P (R23). -/
  cc : CC
  /-- The 50 words of memory (R27). -/
  mem : Memory
  /-- Run state (R28). -/
  run : RunState
  /-- The 8-bit values emitted since reset, oldest first (R29). -/
  out : List Byte
deriving DecidableEq, Repr

/-- The state after reset (10_state.md R32, 70_reset_and_hazards.md R147): register `i` holds `i`. -/
def State.reset : State where
  regs := #v[0, 1, 2, 3, 4, 5, 6, 7]
  pc := 0
  ir := 0
  cc := Config.ccReset
  mem := []
  run := .idle
  out := []

/-- What executing an instruction or taking a step answers. -/
abbrev Result := Host.Outcome State Fault Refusal

end Sys2Proof.Machine
end

