-- ==== Sys2Proof/Machine/Ops.lean ====
section
/-! DEFINITION. The named operations over memory, registers and the run state (spec 00_scope.md R11): every access of
an instruction or of the host goes through one of these. -/

namespace Sys2Proof.Machine

/-! ## Memory -/

/-- The cells of the 50 words. -/
@[simp] def Memory.size : Nat := 2 * Config.memWords

/-- The canonical form from cell `lo` up: addresses rise strictly, lie inside the 50 words, and no cell holds what an
unlisted one reads as. -/
def Memory.wfFrom : Nat → Memory → Bool
  | _, [] => true
  | lo, (b, w) :: m => decide (lo ≤ b) && decide (b < Memory.size) && decide (w ≠ Memory.unlisted) && Memory.wfFrom (b + 1) m

/-- The canonical form of memory: two memories of this form that read alike are equal. -/
def Memory.wf (m : Memory) : Bool := Memory.wfFrom 0 m

/-- One cell. -/
def Memory.byte : Memory → Nat → BitVec 8
  | [], _ => Memory.unlisted
  | (b, w) :: m, a => if b = a then w else Memory.byte m a

/-- A cell before a memory, left out if it says what an unlisted cell says. -/
def Memory.cons (a : Nat) (v : BitVec 8) (m : Memory) : Memory := if v = Memory.unlisted then m else (a, v) :: m

/-- Write one cell, keeping the canonical form. -/
def Memory.setByte : Memory → Nat → BitVec 8 → Memory
  | [], a, v => Memory.cons a v []
  | (b, w) :: m, a, v =>
    if a < b then Memory.cons a v ((b, w) :: m)
    else if a = b then Memory.cons a v m
    else (b, w) :: Memory.setByte m a v

/-- The word at word address `a`: the addressable unit (20_memory.md R34). -/
def Memory.word (m : Memory) (a : Nat) : Word := m.byte (2 * a + 1) ++ m.byte (2 * a)

/-- Write the word at word address `a`. -/
def Memory.setWord (m : Memory) (a : Nat) (v : Word) : Memory :=
  (m.setByte (2 * a) (v.extractLsb' 0 8)).setByte (2 * a + 1) (v.extractLsb' 8 8)

/-- The range test of every access, on the integer address (20_memory.md R35, R36). -/
abbrev validAddress (addr : Int) : Prop := 0 ≤ addr ∧ addr ≤ 49

/-- `MemRead(addr, 1)` (20_memory.md R36). -/
def memRead (m : Memory) (addr : Int) : Except Fault Word :=
  if validAddress addr then .ok (m.word addr.toNat) else .error .invalidAddressError

/-- `MemWrite(addr, 1, v)`, used by the host's program placement only (20_memory.md R38). -/
def memWrite (m : Memory) (addr : Int) (v : Word) : Except Fault Memory :=
  if validAddress addr then .ok (m.setWord addr.toNat v) else .error .invalidAddressError

/-! ## Registers -/

/-- `x[r]` (10_state.md R16). -/
def State.reg (s : State) (r : RegIdx) : Word := s.regs[r.toNat]

/-- `x[r] <- v`. No register is hard-wired (R16). -/
def State.setReg (s : State) (r : RegIdx) (v : Word) : State := { s with regs := s.regs.set r.toNat v }

/-! ## Stopping and output -/

/-- `raise E`: the machine stops in `Faulted(E)` and nothing else is written (60_exceptions.md R131). -/
def State.raise (s : State) (e : Fault) : State := { s with run := .faulted e }

/-- The halt path of TRAP (45_trap.md R111). -/
def State.halt (s : State) : State := { s with run := .halted }

/-- `emit(c)`: one value appended to the output stream (45_trap.md R110, 50_interfaces.md R120). -/
def State.emit (s : State) (c : Byte) : State := { s with out := s.out ++ [c] }

/-! ## Fetch -/

/-- The fetch and increment phases (41_fetch_decode_execute.md R86 to R88): the word at `unsigned(pc)` goes to `ir`,
then `pc` is incremented modulo 2^16. An invalid `pc` raises before either is written (R87; log 2). -/
def State.fetch (s : State) : Except Fault State :=
  match memRead s.mem (s.pc.toNat : Int) with
  | .error e => .error e
  | .ok w => .ok { s with ir := w, pc := s.pc + 1 }

/-- The machine about to fetch the word `w`: running, with `w` in memory at `pc` (at the entry point 0 where `pc` names
no memory). It stands for the host's `load` and `start` (log 12). -/
def State.aboutToFetch (s : State) (w : Word) : State :=
  if s.pc.toNat < Config.memWords then { s with mem := s.mem.setWord s.pc.toNat w, run := .running }
  else { s with pc := 0, mem := s.mem.setWord 0 w, run := .running }

end Sys2Proof.Machine
end

