-- ==== Sys2Proof/Machine/Flags.lean ====
section
/-! DEFINITION. Condition codes: their derivation from a result (40_datapath_primitives.md R79) and their test by BR
(42_branch.md R96). -/

namespace Sys2Proof.Machine

/-- The flags of a 16-bit value, by its signed reading: N = 100, P = 001, Z = 010 (R79). -/
def flagsOf (v : Word) : CC :=
  if v.toInt < 0 then 0b100#3
  else if 0 < v.toInt then 0b001#3
  else 0b010#3

/-- `SetCC(v)`: all three bits are written (R79). -/
def State.setCC (s : State) (v : Word) : State := { s with cc := flagsOf v }

/-- The end of every result-producing instruction: `x[dr] <- v`, then `SetCC(v)` (43_operate.md R104). -/
def State.writeResult (s : State) (dr : RegIdx) (v : Word) : State := (s.setReg dr v).setCC v

/-- The branch condition, position by position: n against N, z against Z, p against P (42_branch.md R96), for all 8
values of the flags (R97; log 16). -/
def branchTaken (nzp cc : CC) : Bool :=
  (nzp.getLsbD 2 && cc.getLsbD 2) || (nzp.getLsbD 1 && cc.getLsbD 1) || (nzp.getLsbD 0 && cc.getLsbD 0)

end Sys2Proof.Machine
end

