-- ==== Sys2Proof/Machine/Operands.lean ====
section
/-! DEFINITION. Operand forms and the datapath (spec 30_encoding.md R61 to R63, 40_datapath_primitives.md R72 to
R76). -/

namespace Sys2Proof.Machine

/-! ## Operand forms -/

/-- `sext_16(imm5)`: the immediate operand of ADD and AND (30_encoding.md R61). -/
def immOperand (imm5 : BitVec 5) : Word := imm5.signExtend 16

/-- The target of a taken BR: the post-increment `pc` plus `sext_16(pcOffset9)` modulo 2^16 (42_branch.md R96). -/
def branchTarget (pc : Word) (pcOffset9 : BitVec 9) : Word := pc + pcOffset9.signExtend 16

/-- The effective address of LD: an integer, not reduced modulo 2^16, from the post-increment `pc`
(44_load.md R106). -/
def effectiveAddress (pc : Word) (pcOffset9 : BitVec 9) : Int := pc.toInt + pcOffset9.toInt

/-- The character of OUT: the low 8 bits of the register (45_trap.md R110). -/
def lowByte (v : Word) : Byte := v.extractLsb' 0 8

/-! ## The datapath -/

/-- Writing a number as a 16-bit two's-complement value: its residue modulo 2^16 (R72; log 3). -/
def writeSigned (n : Int) : Word := BitVec.ofInt 16 n

/-- Addition: the sum of the two signed readings, written back signed; the carry is discarded (R73). -/
def aluAdd (a b : Word) : Word := writeSigned (a.toInt + b.toInt)

/-- Bitwise AND (R75). -/
def aluAnd (a b : Word) : Word := a &&& b

/-- Bitwise NOT (R76). -/
def aluNot (a : Word) : Word := ~~~a

end Sys2Proof.Machine
end

