-- ==== Sys2Proof/Machine/Branch.lean ====
section
/-! DEFINITION. Control transfer (spec 42_branch.md). A meaning is given the state after the fetch and the increment:
`ir` holds the word and `pc` the post-increment value (41_fetch_decode_execute.md R86). -/

namespace Sys2Proof.Machine

/-- BR (R96): the target is not checked, and no flag is written. -/
def execBr (nzp : CC) (pcOffset9 : BitVec 9) (s : State) : Result :=
  if branchTaken nzp s.cc then .next { s with pc := branchTarget s.pc pcOffset9 } else .next s

end Sys2Proof.Machine
end

