-- ==== Sys2Proof/Machine/Illegal.lean ====
section
/-! DEFINITION. The ten unlisted opcodes (spec 30_encoding.md R65, 60_exceptions.md R127). -/

namespace Sys2Proof.Machine

/-- `raise UnsupportedOpcodeError` at decode: `ir` and `pc` are already written, nothing else changes (R127). -/
def raiseUnsupportedOpcode (s : State) : Result := .next (s.raise .unsupportedOpcodeError)

/-- Opcode 0011 (R127). -/
def execIllegal0011 (s : State) : Result := raiseUnsupportedOpcode s

/-- Opcode 0100 (R127). -/
def execIllegal0100 (s : State) : Result := raiseUnsupportedOpcode s

/-- Opcode 0110 (R127). -/
def execIllegal0110 (s : State) : Result := raiseUnsupportedOpcode s

/-- Opcode 0111 (R127). -/
def execIllegal0111 (s : State) : Result := raiseUnsupportedOpcode s

/-- Opcode 1000 (R127). -/
def execIllegal1000 (s : State) : Result := raiseUnsupportedOpcode s

/-- Opcode 1010 (R127). -/
def execIllegal1010 (s : State) : Result := raiseUnsupportedOpcode s

/-- Opcode 1011 (R127). -/
def execIllegal1011 (s : State) : Result := raiseUnsupportedOpcode s

/-- Opcode 1100 (R127). -/
def execIllegal1100 (s : State) : Result := raiseUnsupportedOpcode s

/-- Opcode 1101 (R127). -/
def execIllegal1101 (s : State) : Result := raiseUnsupportedOpcode s

/-- Opcode 1110 (R127). -/
def execIllegal1110 (s : State) : Result := raiseUnsupportedOpcode s

end Sys2Proof.Machine
end

