-- ==== Sys2Proof/Machine/Load.lean ====
section
/-! DEFINITION. The one load (spec 44_load.md); there is no store (R108). -/

namespace Sys2Proof.Machine

/-- LD (R106): an effective address outside 0..49 raises `InvalidAddressError` before the register and the flags are
written (60_exceptions.md R132; log 15). -/
def execLd (dr : RegIdx) (pcOffset9 : BitVec 9) (s : State) : Result :=
  match memRead s.mem (effectiveAddress s.pc pcOffset9) with
  | .error e => .next (s.raise e)
  | .ok w => .next (s.writeResult dr w)

end Sys2Proof.Machine
end

