-- ==== Sys2Proof/Machine/Operate.lean ====
section
/-! DEFINITION. Operate instructions (spec 43_operate.md). Sources are read from the state the instruction is given,
before the destination is written (R104). -/

namespace Sys2Proof.Machine

/-- ADD, register mode (R99). -/
def execAddReg (dr sr1 sr2 : RegIdx) (s : State) : Result :=
  .next (s.writeResult dr (aluAdd (s.reg sr1) (s.reg sr2)))

/-- ADD, immediate mode (R100): no register but `dr` is written, and none but `sr1` is read. -/
def execAddImm (dr sr1 : RegIdx) (imm5 : BitVec 5) (s : State) : Result :=
  .next (s.writeResult dr (aluAdd (s.reg sr1) (immOperand imm5)))

/-- AND, register mode (R101). -/
def execAndReg (dr sr1 sr2 : RegIdx) (s : State) : Result :=
  .next (s.writeResult dr (aluAnd (s.reg sr1) (s.reg sr2)))

/-- AND, immediate mode (R102): the immediate is sign-extended (90_conflicts.md C4). -/
def execAndImm (dr sr1 : RegIdx) (imm5 : BitVec 5) (s : State) : Result :=
  .next (s.writeResult dr (aluAnd (s.reg sr1) (immOperand imm5)))

/-- NOT (R103): `x[sr]` is changed only if it is `x[dr]` (90_conflicts.md C9). -/
def execNot (dr sr : RegIdx) (s : State) : Result :=
  .next (s.writeResult dr (aluNot (s.reg sr)))

end Sys2Proof.Machine
end

