-- ==== Sys2Proof/Machine/Trap.lean ====
section
/-! DEFINITION. TRAP (spec 45_trap.md): a built-in operation inside the step; it saves nothing, reads no memory, goes
nowhere (R112). -/

namespace Sys2Proof.Machine

/-- TRAP (R109): vector 0x21 emits the low byte of `x[0]` (R110), every other vector halts (R111). -/
def execTrap (vector : BitVec 8) (s : State) : Result :=
  if vector = Config.trapOut then .next (s.emit (lowByte (s.reg 0))) else .next s.halt

end Sys2Proof.Machine
end

