-- ==== Sys2Proof/Machine/Dispatch.lean ====
section
/-! DEFINITION. The dispatch of 41_fetch_decode_execute.md R86: one arm per row of the opcode table. -/

namespace Sys2Proof.Machine

def exec (i : Instr) (s : State) : Host.Outcome State Fault Refusal :=
  match i with
  | .br nzp off => Sys2Proof.Machine.execBr nzp off s
  | .addReg dr sr1 sr2 => Sys2Proof.Machine.execAddReg dr sr1 sr2 s
  | .addImm dr sr1 imm5 => Sys2Proof.Machine.execAddImm dr sr1 imm5 s
  | .ld dr off => Sys2Proof.Machine.execLd dr off s
  | .andReg dr sr1 sr2 => Sys2Proof.Machine.execAndReg dr sr1 sr2 s
  | .andImm dr sr1 imm5 => Sys2Proof.Machine.execAndImm dr sr1 imm5 s
  | .not dr sr => Sys2Proof.Machine.execNot dr sr s
  | .trap vector => Sys2Proof.Machine.execTrap vector s
  | .illegal0011 => Sys2Proof.Machine.execIllegal0011 s
  | .illegal0100 => Sys2Proof.Machine.execIllegal0100 s
  | .illegal0110 => Sys2Proof.Machine.execIllegal0110 s
  | .illegal0111 => Sys2Proof.Machine.execIllegal0111 s
  | .illegal1000 => Sys2Proof.Machine.execIllegal1000 s
  | .illegal1010 => Sys2Proof.Machine.execIllegal1010 s
  | .illegal1011 => Sys2Proof.Machine.execIllegal1011 s
  | .illegal1100 => Sys2Proof.Machine.execIllegal1100 s
  | .illegal1101 => Sys2Proof.Machine.execIllegal1101 s
  | .illegal1110 => Sys2Proof.Machine.execIllegal1110 s

end Sys2Proof.Machine
end

