-- ==== Sys2Proof/Machine/Step.lean ====
section
/-! DEFINITION. One step of the engine (spec 41_fetch_decode_execute.md R86). -/

namespace Sys2Proof.Machine

/-- Running: fetch, increment, decode, execute (R86); a fetch outside 0..49 raises with `ir` and `pc` kept (R87). Idle
or halted: nothing happens (R86, 60_exceptions.md R143; log 6). Faulted: the machine has stopped with that error and
takes no further step (60_exceptions.md R131; log 5). -/
def step (s : State) : Host.Outcome State Fault Refusal :=
  match s.run with
  | .idle => .next s
  | .halted => .next s
  | .faulted e => .fault e
  | .running =>
    match s.fetch with
    | .error e => .next (s.raise e)
    | .ok f => exec (decode f.ir) f

/-- `s` with the instruction of bits `w` placed where the next step fetches, and the machine running (log 12). An
instruction is one word, so the bits above `nbits` are zero. -/
def State.withFetchWord (s : State) (nbits w : Nat) : State := s.aboutToFetch (BitVec.ofNat 16 (w % 2 ^ nbits))

end Sys2Proof.Machine
end

