-- ==== Sys2Proof/Machine/HostPort.lean ====
section
/-! DEFINITION. The interfaces to the host (spec 50_interfaces.md R114): events on the state between steps, and what
the host can read. The engine never calls these (log 12). -/

namespace Sys2Proof.Machine

/-- Why a program is not placed. -/
inductive LoadRefusal where
  /-- `InvalidProgramError`: no word, or 50 and more; memory is untouched (R117). Safe. -/
  | invalidProgramError
  /-- `load` is accepted in `Idle` only (R116). Safe. -/
  | notIdle
  /-- A program is already in memory: the spec gives a second load no effect (R118). Safe. -/
  | secondLoad
  /-- The memory refused a word's address; it cannot happen, since at most 49 words are placed from 0 (R118). Safe. -/
  | placement (e : Fault)
deriving DecidableEq, Repr

/-- `MemWrite(i, 1, w)` for each word in order, from address `i` up (R116). -/
def placeWords : Memory → Nat → List Word → Except Fault Memory
  | m, _, [] => .ok m
  | m, i, w :: ws =>
    match memWrite m (i : Int) w with
    | .error e => .error e
    | .ok m' => placeWords m' (i + 1) ws

/-- The `load` port: 1 to 49 words at addresses 0 up, while `Idle` (R116, R117). -/
def State.load (s : State) (ws : List Word) : Except LoadRefusal State :=
  if s.run ≠ .idle then .error .notIdle
  else if ws.length = 0 ∨ Config.progMax < ws.length then .error .invalidProgramError
  else if s.mem ≠ [] then .error .secondLoad
  else
    match placeWords s.mem 0 ws with
    | .error e => .error (.placement e)
    | .ok m => .ok { s with mem := m }

/-- The `start` port: `Idle` becomes `Running`; in any other state the event has no effect (R119). -/
def State.start (s : State) : State := if s.run = .idle then { s with run := .running } else s

/-- The `reset` port: every element to its reset value, from any state (R115, 70_reset_and_hazards.md R147). -/
def State.resetEvent (_ : State) : State := State.reset

/-- The `status` port's code for the run state (R122). -/
def RunState.code : RunState → Nat
  | .idle => 0
  | .running => 1
  | .halted => 2
  | .faulted .invalidAddressError => 3
  | .faulted .unsupportedOpcodeError => 4

/-- The `status` port. -/
def State.status (s : State) : Nat := s.run.code

/-- Copies of the state elements. -/
def State.snapshot (s : State) : Snapshot where
  regs := s.regs
  mem := (List.range Config.memWords).map s.mem.word
  pc := s.pc
  ir := s.ir
  cc := s.cc

/-- What the host's `n`-th use of the `inspect` port reads (R121): the state elements, or, during a run, values the spec
does not give (log 13). It changes no state: it answers none. -/
def State.inspect (s : State) (n : Nat) : Snapshot :=
  if s.run = .running then Config.midRunInspection n else s.snapshot

end Sys2Proof.Machine
end

