-- ==== Sys2Proof/Safety.lean ====
section
/-! DEFINITION. The terms in which claims about the machine are stated: which states are legal, how a run ends, which
states the host can bring about, which registers an instruction names. -/

namespace Sys2Proof

/-! ## What an instruction names -/

/-- The general registers an instruction reads (10_state.md R17). -/
def Instr.reads : Instr → List RegIdx
  | .br _ _ => []
  | .addReg _ sr1 sr2 => [sr1, sr2]
  | .addImm _ sr1 _ => [sr1]
  | .ld _ _ => []
  | .andReg _ sr1 sr2 => [sr1, sr2]
  | .andImm _ sr1 _ => [sr1]
  | .not _ sr => [sr]
  | .trap vector => if vector = Config.trapOut then [0] else []
  | .illegal0011 => []
  | .illegal0100 => []
  | .illegal0110 => []
  | .illegal0111 => []
  | .illegal1000 => []
  | .illegal1010 => []
  | .illegal1011 => []
  | .illegal1100 => []
  | .illegal1101 => []
  | .illegal1110 => []

/-- The general register an instruction writes (10_state.md R17). -/
def Instr.writes : Instr → Option RegIdx
  | .br _ _ => none
  | .addReg dr _ _ => some dr
  | .addImm dr _ _ => some dr
  | .ld dr _ => some dr
  | .andReg dr _ _ => some dr
  | .andImm dr _ _ => some dr
  | .not dr _ => some dr
  | .trap _ => none
  | .illegal0011 => none
  | .illegal0100 => none
  | .illegal0110 => none
  | .illegal0111 => none
  | .illegal1000 => none
  | .illegal1010 => none
  | .illegal1011 => none
  | .illegal1100 => none
  | .illegal1101 => none
  | .illegal1110 => none

end Sys2Proof

namespace Sys2Proof.Machine

/-! ## Legal states -/

/-- The values `cc` can hold: none set (after reset) or exactly one flag (10_state.md R25, R26). -/
def ccLegal (c : CC) : Prop := c = 0b000#3 ∨ c = 0b100#3 ∨ c = 0b010#3 ∨ c = 0b001#3

/-- `c` is the flags of `v`, said by the signed reading of `v` (40_datapath_primitives.md R79). -/
def FlagsTell (c : CC) (v : Word) : Prop :=
  (v.toInt < 0 → c = 0b100#3) ∧ (v.toInt = 0 → c = 0b010#3) ∧ (0 < v.toInt → c = 0b001#3)

/-- `ir` is the word at the address before `pc`: the instruction last fetched has not branched
(41_fetch_decode_execute.md R88). -/
def State.IrFetched (s : State) : Prop :=
  1 ≤ s.pc.toNat ∧ s.pc.toNat ≤ 50 ∧ s.ir = s.mem.word (s.pc.toNat - 1)

/-- The run state is explained by `pc`, `ir` and memory: what the host can tell of a stop from them
(45_trap.md R111, 60_exceptions.md R126, R127, R132). -/
def State.StopExplained (s : State) : Prop :=
  match s.run with
  | .idle => True
  | .running => True
  | .halted => s.IrFetched ∧ opcodeOf s.ir = 0b1111#4 ∧ vectorOf s.ir ≠ 0x21#8
  | .faulted .unsupportedOpcodeError =>
    s.IrFetched ∧ opcodeOf s.ir ∉ [0b0000#4, 0b0001#4, 0b0010#4, 0b0101#4, 0b1001#4, 0b1111#4]
  | .faulted .invalidAddressError =>
    49 < s.pc.toNat ∨
      (s.IrFetched ∧ opcodeOf s.ir = 0b0010#4 ∧ ¬ validAddress (s.pc.toInt + (pcOffset9Of s.ir).toInt))

/-- In `Idle` the state is the reset state, plus the loaded program (50_interfaces.md R124). -/
def State.IdleFresh (s : State) : Prop := s.run = .idle → s = { State.reset with mem := s.mem }

/-- A legal state: memory in its canonical form, legal flags, a stop that is explained, `Idle` only when fresh. -/
structure State.Legal (s : State) : Prop where
  mem_wf : s.mem.wf = true
  cc_legal : ccLegal s.cc
  stop_explained : s.StopExplained
  idle_fresh : s.IdleFresh

/-- A legal state in which `pc` and `ir` tell a failed fetch from a failed LD: the last word of memory, beyond every
program, is zero, so that no LD is fetched from it and `pc` is never 50 with an LD in `ir` (60_exceptions.md R126,
20_memory.md R42). -/
structure State.ErrorsTold (s : State) : Prop where
  legal : s.Legal
  last_word_zero : s.mem.word 49 = 0x0000#16
  no_ld_at_end : s.pc = 50#16 → opcodeOf s.ir ≠ 0b0010#4

/-! ## Runs -/

/-- What the host and the engine can bring about: reset, an accepted load, a start, and steps
(50_interfaces.md R114, 10_state.md R28). -/
inductive Reachable : State → Prop where
  | reset : Reachable State.reset
  | load {s t : State} (ws : List Word) : Reachable s → s.load ws = .ok t → Reachable t
  | start {s : State} : Reachable s → Reachable s.start
  | step {s t : State} : Reachable s → Machine.step s = .next t → Reachable t

/-- A run has succeeded when it has halted; `Faulted(E)` is never the end of a successful run
(60_exceptions.md R131, 41_fetch_decode_execute.md R92). -/
def State.Succeeded (s : State) : Prop := s.run = .halted

/-! ## A step about to be taken -/

/-- The machine is running and the word at `pc`, inside memory, is `w` (41_fetch_decode_execute.md R86). -/
def State.AboutToRun (s : State) (w : Word) : Prop :=
  s.run = .running ∧ s.pc.toNat ≤ 49 ∧ s.mem.word s.pc.toNat = w

/-! ## Comparing two states -/

/-- Everything but the general registers agrees. -/
def State.SameButRegs (s t : State) : Prop :=
  t.pc = s.pc ∧ t.ir = s.ir ∧ t.cc = s.cc ∧ t.mem = s.mem ∧ t.run = s.run ∧ t.out = s.out

/-- What a result-producing instruction leaves in `t` from `s` (43_operate.md R104, R105): `r` in `x[dr]`, the flags of
`r`, and nothing else written. -/
def State.WritesOnly (s t : State) (dr : RegIdx) (r : Word) : Prop :=
  t.reg dr = r ∧ (∀ k, k ≠ dr → t.reg k = s.reg k) ∧ FlagsTell t.cc r ∧
    t.pc = s.pc ∧ t.ir = s.ir ∧ t.mem = s.mem ∧ t.run = s.run ∧ t.out = s.out

end Sys2Proof.Machine
end

