-- ==== Sys2Proof/Certificates/Slice0/Obligations.lean ====
section
/-! DEFINITION. The statements for the provers, each taken from the numbered rules of spec/. At the level of a step
they read the fetched word's bits themselves, `w.extractLsb' lo width` for `ir[lo + width - 1 : lo]`, and not through
the decoder. -/

open Sys2Proof Sys2Proof.Machine

/-! ## Encoding -/

/-- The decoder reads back every instruction the encoder writes, with every operand at every value
(30_encoding.md R54 to R60). -/
def Obligations.DecodeReadsBackEncode : Prop := ∀ i : Instr, decode (encode i) = i

/-- The encoder writes back every word the decoder reads, on all bits but the unused ones (30_encoding.md R64: which
bits those are is the spec's decision D16, log 10). -/
def Obligations.EncodeWritesBackUsedBits : Prop :=
  ∀ w : Word, encode (decode w) &&& usedBits (decode w) = w &&& usedBits (decode w)

/-- Two words that agree on the bits the first one's instruction uses are the same instruction
(30_encoding.md R64, decision D16, log 10). -/
def Obligations.UnusedBitsAreIgnored : Prop :=
  ∀ w w' : Word, w &&& usedBits (decode w) = w' &&& usedBits (decode w) → decode w' = decode w

/-- The opcode map: which row each opcode, and for ADD and AND the mode bit, selects, with the fields of R53
(30_encoding.md R60, R63, R65). -/
def Obligations.OpcodeSelectsRow : Prop :=
  ∀ w : Word,
    (w.extractLsb' 12 4 = 0b0000#4 → decode w = .br (w.extractLsb' 9 3) (w.extractLsb' 0 9)) ∧
    (w.extractLsb' 12 4 = 0b0001#4 → w.getLsbD 5 = false →
      decode w = .addReg (w.extractLsb' 9 3) (w.extractLsb' 6 3) (w.extractLsb' 0 3)) ∧
    (w.extractLsb' 12 4 = 0b0001#4 → w.getLsbD 5 = true →
      decode w = .addImm (w.extractLsb' 9 3) (w.extractLsb' 6 3) (w.extractLsb' 0 5)) ∧
    (w.extractLsb' 12 4 = 0b0010#4 → decode w = .ld (w.extractLsb' 9 3) (w.extractLsb' 0 9)) ∧
    (w.extractLsb' 12 4 = 0b0101#4 → w.getLsbD 5 = false →
      decode w = .andReg (w.extractLsb' 9 3) (w.extractLsb' 6 3) (w.extractLsb' 0 3)) ∧
    (w.extractLsb' 12 4 = 0b0101#4 → w.getLsbD 5 = true →
      decode w = .andImm (w.extractLsb' 9 3) (w.extractLsb' 6 3) (w.extractLsb' 0 5)) ∧
    (w.extractLsb' 12 4 = 0b1001#4 → decode w = .not (w.extractLsb' 9 3) (w.extractLsb' 6 3)) ∧
    (w.extractLsb' 12 4 = 0b1111#4 → decode w = .trap (w.extractLsb' 0 8)) ∧
    (w.extractLsb' 12 4 = 0b0011#4 → decode w = .illegal0011) ∧
    (w.extractLsb' 12 4 = 0b0100#4 → decode w = .illegal0100) ∧
    (w.extractLsb' 12 4 = 0b0110#4 → decode w = .illegal0110) ∧
    (w.extractLsb' 12 4 = 0b0111#4 → decode w = .illegal0111) ∧
    (w.extractLsb' 12 4 = 0b1000#4 → decode w = .illegal1000) ∧
    (w.extractLsb' 12 4 = 0b1010#4 → decode w = .illegal1010) ∧
    (w.extractLsb' 12 4 = 0b1011#4 → decode w = .illegal1011) ∧
    (w.extractLsb' 12 4 = 0b1100#4 → decode w = .illegal1100) ∧
    (w.extractLsb' 12 4 = 0b1101#4 → decode w = .illegal1101) ∧
    (w.extractLsb' 12 4 = 0b1110#4 → decode w = .illegal1110)

/-- A word is an instruction exactly when its opcode is one of the six (00_scope.md R2, 30_encoding.md R65). -/
def Obligations.SixOpcodesAreInstructions : Prop :=
  ∀ w : Word, (decode w).WellFormed ↔
    w.extractLsb' 12 4 ∈ [0b0000#4, 0b0001#4, 0b0010#4, 0b0101#4, 0b1001#4, 0b1111#4]

/-- Words written out from the formats of R54 to R59 decode to what they stand for. -/
def Obligations.WrittenWordsDecode : Prop :=
  decode 0b0000001111111101#16 = .br 0b001#3 0b111111101#9 ∧
  decode 0b0001000000000001#16 = .addReg 0 0 1 ∧
  decode 0b0001001001100101#16 = .addImm 1 1 0b00101#5 ∧
  decode 0b0010001000000001#16 = .ld 1 0b000000001#9 ∧
  decode 0b0101000001000011#16 = .andReg 0 1 3 ∧
  decode 0b0101010010100000#16 = .andImm 2 2 0b00000#5 ∧
  decode 0b1001100101111111#16 = .not 4 5 ∧
  decode 0b1111000000100101#16 = .trap 0x25#8 ∧
  decode 0b0011000000000000#16 = .illegal0011

/-! ## What each instruction does to the state it is given -/

/-- ADD, both modes, in every state: the sum modulo 2^16 goes to `dr`, the flags are the sum's, nothing else changes
(43_operate.md R99, R100, R104). That an overflowing sum wraps is the spec's decision D3 (log 3), that the immediate
is no register its decision D12 (log 8). -/
def Obligations.AddWritesTheSum : Prop :=
  (∀ (dr sr1 sr2 : RegIdx) (s : State), ∃ t, exec (.addReg dr sr1 sr2) s = .next t ∧
    s.WritesOnly t dr (s.reg sr1 + s.reg sr2) ∧
    (t.reg dr).toNat = ((s.reg sr1).toNat + (s.reg sr2).toNat) % 65536) ∧
  (∀ (dr sr1 : RegIdx) (imm5 : BitVec 5) (s : State), ∃ t, exec (.addImm dr sr1 imm5) s = .next t ∧
    s.WritesOnly t dr (s.reg sr1 + imm5.signExtend 16) ∧
    ((t.reg dr).toInt - ((s.reg sr1).toInt + imm5.toInt)) % 65536 = 0)

/-- AND, both modes, in every state: each bit of `dr` is the conjunction of the operands' bits, the flags are the
result's, nothing else changes (43_operate.md R101, R102, R104, 40_datapath_primitives.md R75). -/
def Obligations.AndWritesTheConjunction : Prop :=
  (∀ (dr sr1 sr2 : RegIdx) (s : State), ∃ t, exec (.andReg dr sr1 sr2) s = .next t ∧
    s.WritesOnly t dr (t.reg dr) ∧
    ∀ b, b < 16 → (t.reg dr).getLsbD b = ((s.reg sr1).getLsbD b && (s.reg sr2).getLsbD b)) ∧
  (∀ (dr sr1 : RegIdx) (imm5 : BitVec 5) (s : State), ∃ t, exec (.andImm dr sr1 imm5) s = .next t ∧
    s.WritesOnly t dr (t.reg dr) ∧
    ∀ b, b < 16 → (t.reg dr).getLsbD b = ((s.reg sr1).getLsbD b && imm5.getLsbD (min b 4)))

/-- NOT, in every state: each bit of `dr` is the flipped bit of `sr`, its signed value is minus the source's minus
one, nothing else changes (43_operate.md R103, R104, 40_datapath_primitives.md R76). -/
def Obligations.NotFlipsEveryBit : Prop :=
  ∀ (dr sr : RegIdx) (s : State), ∃ t, exec (.not dr sr) s = .next t ∧
    s.WritesOnly t dr (t.reg dr) ∧
    (∀ b, b < 16 → (t.reg dr).getLsbD b = !(s.reg sr).getLsbD b) ∧
    (t.reg dr).toInt = -(s.reg sr).toInt - 1

/-- LD with its effective address inside 0..49: the word there goes to `dr`, the flags are the word's, nothing else
changes (44_load.md R106). -/
def Obligations.LdLoadsTheWord : Prop :=
  ∀ (dr : RegIdx) (off : BitVec 9) (s : State),
    0 ≤ s.pc.toInt + off.toInt → s.pc.toInt + off.toInt ≤ 49 →
    ∃ t, exec (.ld dr off) s = .next t ∧
      s.WritesOnly t dr (s.mem.word (s.pc.toInt + off.toInt).toNat)

/-- LD with its effective address outside 0..49: the machine stops in `Faulted(InvalidAddressError)` and writes
nothing else, the destination and the flags among it (44_load.md R106, 60_exceptions.md R126, R132; the spec's
decision D20, log 15). -/
def Obligations.LdOutsideMemoryRaises : Prop :=
  ∀ (dr : RegIdx) (off : BitVec 9) (s : State),
    (s.pc.toInt + off.toInt < 0 ∨ 49 < s.pc.toInt + off.toInt) →
    exec (.ld dr off) s = .next { s with run := .faulted .invalidAddressError }

/-- BR, in every state and for all 8 values of the flags: `pc` moves by the offset exactly when a mask bit meets a set
flag, and nothing else changes (42_branch.md R96, R97; the base of the offset is the spec's decision D13, log 9, the
values of `cc` with several flags its decision D22, log 16). -/
def Obligations.BrMovesPcWhenAFlagMatches : Prop :=
  ∀ (nzp : CC) (off : BitVec 9) (s : State),
    exec (.br nzp off) s =
      .next { s with pc := if nzp &&& s.cc ≠ 0b000#3 then s.pc + off.signExtend 16 else s.pc }

/-- TRAP, in every state: vector 0x21 appends the low byte of register 0 to the output and goes on, every other vector
halts, and neither changes anything else (45_trap.md R109 to R112; that all other vectors halt is the spec's decision
D11, log 7). -/
def Obligations.TrapEmitsOrHalts : Prop :=
  ∀ (vector : BitVec 8) (s : State),
    exec (.trap vector) s =
      .next (if vector = 0x21#8 then { s with out := s.out ++ [(s.reg 0).extractLsb' 0 8] } else { s with run := .halted })

/-- Each of the ten unlisted opcodes stops the machine in `Faulted(UnsupportedOpcodeError)` and writes nothing else
(60_exceptions.md R127). -/
def Obligations.UnlistedOpcodesRaise : Prop :=
  ∀ (s : State) (i : Instr),
    i ∈ [.illegal0011, .illegal0100, .illegal0110, .illegal0111, .illegal1000, .illegal1010, .illegal1011,
      .illegal1100, .illegal1101, .illegal1110] →
    exec i s = .next { s with run := .faulted .unsupportedOpcodeError }

/-! ## What a step does, read from the bits of the fetched word -/

/-- A step runs the decoded instruction on the state whose `ir` is the word and whose `pc` is incremented
(41_fetch_decode_execute.md R86). -/
def Obligations.StepRunsTheDecodedInstruction : Prop :=
  ∀ (s : State) (w : Word), s.AboutToRun w → step s = exec (decode w) { s with ir := w, pc := s.pc + 1 }

/-- A step over an ADD word (43_operate.md R99, R100, 41_fetch_decode_execute.md R91; decisions D3 and D12 of the
spec, log 3 and log 8). -/
def Obligations.StepOverAdd : Prop :=
  ∀ (s : State) (w : Word), s.AboutToRun w → w.extractLsb' 12 4 = 0b0001#4 →
    ∃ t, step s = .next t ∧
      State.WritesOnly { s with ir := w, pc := s.pc + 1 } t (w.extractLsb' 9 3)
        (s.reg (w.extractLsb' 6 3) +
          if w.getLsbD 5 then (w.extractLsb' 0 5).signExtend 16 else s.reg (w.extractLsb' 0 3))

/-- A step over an AND word (43_operate.md R101, R102). -/
def Obligations.StepOverAnd : Prop :=
  ∀ (s : State) (w : Word), s.AboutToRun w → w.extractLsb' 12 4 = 0b0101#4 →
    ∃ t, step s = .next t ∧
      State.WritesOnly { s with ir := w, pc := s.pc + 1 } t (w.extractLsb' 9 3)
        (s.reg (w.extractLsb' 6 3) &&&
          if w.getLsbD 5 then (w.extractLsb' 0 5).signExtend 16 else s.reg (w.extractLsb' 0 3))

/-- A step over a NOT word, whatever its six low bits (43_operate.md R103). -/
def Obligations.StepOverNot : Prop :=
  ∀ (s : State) (w : Word), s.AboutToRun w → w.extractLsb' 12 4 = 0b1001#4 →
    ∃ t, step s = .next t ∧
      State.WritesOnly { s with ir := w, pc := s.pc + 1 } t (w.extractLsb' 9 3) (~~~(s.reg (w.extractLsb' 6 3)))

/-- A step over an LD word: the effective address is the integer sum of the incremented `pc` and the offset, both read
signed; inside 0..49 the word is loaded, outside the machine stops with register and flags kept (44_load.md R106). -/
def Obligations.StepOverLd : Prop :=
  ∀ (s : State) (w : Word), s.AboutToRun w → w.extractLsb' 12 4 = 0b0010#4 →
    ∃ t, step s = .next t ∧
      if 0 ≤ (s.pc + 1).toInt + (w.extractLsb' 0 9).toInt ∧ (s.pc + 1).toInt + (w.extractLsb' 0 9).toInt ≤ 49 then
        State.WritesOnly { s with ir := w, pc := s.pc + 1 } t (w.extractLsb' 9 3)
          (s.mem.word ((s.pc + 1).toInt + (w.extractLsb' 0 9).toInt).toNat)
      else t = { s with ir := w, pc := s.pc + 1, run := .faulted .invalidAddressError }

/-- A step over a BR word: position by position, n against N, z against Z, p against P (42_branch.md R96; the base of
the offset is the spec's decision D13, log 9). -/
def Obligations.StepOverBr : Prop :=
  ∀ (s : State) (w : Word), s.AboutToRun w → w.extractLsb' 12 4 = 0b0000#4 →
    step s = .next { s with
      ir := w
      pc :=
        if (w.getLsbD 11 = true ∧ s.cc.getLsbD 2 = true) ∨ (w.getLsbD 10 = true ∧ s.cc.getLsbD 1 = true) ∨
            (w.getLsbD 9 = true ∧ s.cc.getLsbD 0 = true) then
          s.pc + 1 + (w.extractLsb' 0 9).signExtend 16
        else s.pc + 1 }

/-- A step over a TRAP word, whatever its bits 11 to 8 (45_trap.md R109). -/
def Obligations.StepOverTrap : Prop :=
  ∀ (s : State) (w : Word), s.AboutToRun w → w.extractLsb' 12 4 = 0b1111#4 →
    step s = .next
      (if w.extractLsb' 0 8 = 0x21#8 then
        { s with ir := w, pc := s.pc + 1, out := s.out ++ [(s.reg 0).extractLsb' 0 8] }
      else { s with ir := w, pc := s.pc + 1, run := .halted })

/-- A step over a word of an unlisted opcode (60_exceptions.md R127). -/
def Obligations.StepOverUnlistedOpcode : Prop :=
  ∀ (s : State) (w : Word), s.AboutToRun w →
    w.extractLsb' 12 4 ∈ [0b0011#4, 0b0100#4, 0b0110#4, 0b0111#4, 0b1000#4, 0b1010#4, 0b1011#4, 0b1100#4, 0b1101#4,
      0b1110#4] →
    step s = .next { s with ir := w, pc := s.pc + 1, run := .faulted .unsupportedOpcodeError }

/-- A fetch outside 0..49 stops the machine and writes nothing, `ir` and `pc` among it
(41_fetch_decode_execute.md R87; the spec's decision D2, log 2). -/
def Obligations.FetchOutsideMemoryRaises : Prop :=
  ∀ s : State, s.run = .running → 49 < s.pc.toNat →
    step s = .next { s with run := .faulted .invalidAddressError }

/-! ## Whole-machine rules -/

/-- The model never refuses, and a step answers a fault exactly when the machine has already stopped with it (that a
stopped machine's step is a fault is the model's choice, log 5, after 60_exceptions.md R131). -/
def Obligations.StepIsNeverRefused : Prop :=
  ∀ s : State, (∀ r, step s ≠ .refused r) ∧ (∀ e, step s = .fault e ↔ s.run = .faulted e)

/-- Outside `Running` no number of steps changes anything: idle and halted machines stay as they are, a faulted one
has stopped (41_fetch_decode_execute.md R86, 10_state.md R28; decisions D5 and D6 of the spec, log 5 and log 6). -/
def Obligations.StoppedMachinesStayStopped : Prop :=
  ∀ (s : State) (n : Nat),
    (s.run = .idle ∨ s.Succeeded → Host.Core.run Sys2Proof.core n s = .next s) ∧
    (∀ e, s.run = .faulted e → Host.Core.run Sys2Proof.core (n + 1) s = .fault e)

/-- How a running machine's step can end, and exactly when (10_state.md R28, 41_fetch_decode_execute.md R91; decisions
D2, D5 and D6 of the spec). -/
def Obligations.RunningStopsExactlyWhen : Prop :=
  ∀ s t : State, s.run = .running → step s = .next t →
    (t.run = .halted ↔ s.pc.toNat ≤ 49 ∧ (s.mem.word s.pc.toNat).extractLsb' 12 4 = 0b1111#4 ∧
      (s.mem.word s.pc.toNat).extractLsb' 0 8 ≠ 0x21#8) ∧
    (t.run = .faulted .unsupportedOpcodeError ↔ s.pc.toNat ≤ 49 ∧
      (s.mem.word s.pc.toNat).extractLsb' 12 4 ∉ [0b0000#4, 0b0001#4, 0b0010#4, 0b0101#4, 0b1001#4, 0b1111#4]) ∧
    (t.run = .faulted .invalidAddressError ↔ 49 < s.pc.toNat ∨
      ((s.mem.word s.pc.toNat).extractLsb' 12 4 = 0b0010#4 ∧
        ¬ validAddress ((s.pc + 1).toInt + ((s.mem.word s.pc.toNat).extractLsb' 0 9).toInt))) ∧
    t.run ≠ .idle

/-- No step changes memory (20_memory.md R38). -/
def Obligations.NoStepWritesMemory : Prop :=
  ∀ s t : State, step s = .next t → t.mem = s.mem ∧ ∀ a, t.mem.byte a = s.mem.byte a

/-- Which step writes the flags, and from what: ADD, AND, NOT and an LD that loads, from the value then in `dr`; no
other step (43_operate.md R105). -/
def Obligations.FlagsAreTheLastResults : Prop :=
  ∀ (s t : State) (w : Word), s.AboutToRun w → step s = .next t →
    (w.extractLsb' 12 4 ∈ [0b0001#4, 0b0101#4, 0b1001#4] → FlagsTell t.cc (t.reg (w.extractLsb' 9 3))) ∧
    (w.extractLsb' 12 4 = 0b0010#4 →
      if t.run = .running then FlagsTell t.cc (t.reg (w.extractLsb' 9 3)) else t.cc = s.cc) ∧
    (w.extractLsb' 12 4 ∉ [0b0001#4, 0b0101#4, 0b1001#4, 0b0010#4] → t.cc = s.cc)

/-- No step writes a general register but the `dr` of ADD, LD, AND and NOT (10_state.md R17). -/
def Obligations.OnlyDrIsWritten : Prop :=
  ∀ (s t : State), step s = .next t → ∀ k : RegIdx, t.reg k ≠ s.reg k →
    s.AboutToRun (s.mem.word s.pc.toNat) ∧
    (s.mem.word s.pc.toNat).extractLsb' 12 4 ∈ [0b0001#4, 0b0010#4, 0b0101#4, 0b1001#4] ∧
    k = (s.mem.word s.pc.toNat).extractLsb' 9 3

/-- Every step of a running machine that fetches moves `pc` to the next word and puts the word in `ir`; a taken BR alone
then adds its offset; a failed fetch keeps both (10_state.md R20, R22; decisions D2 and D13 of the spec). -/
def Obligations.PcAdvancesAndIrHoldsTheWord : Prop :=
  ∀ s t : State, s.run = .running → step s = .next t →
    if 49 < s.pc.toNat then t.pc = s.pc ∧ t.ir = s.ir
    else
      t.ir = s.mem.word s.pc.toNat ∧
      t.pc =
        if t.ir.extractLsb' 12 4 = 0b0000#4 ∧ t.ir.extractLsb' 9 3 &&& s.cc ≠ 0b000#3 then
          s.pc + 1 + (t.ir.extractLsb' 0 9).signExtend 16
        else s.pc + 1

/-- The output grows by one value, the low byte of register 0, at a TRAP with vector 0x21, and by nothing else
(10_state.md R29, 45_trap.md R110). -/
def Obligations.OutputGrowsByOutAlone : Prop :=
  ∀ s t : State, step s = .next t →
    t.out =
      if s.run = .running ∧ s.pc.toNat ≤ 49 ∧ (s.mem.word s.pc.toNat).extractLsb' 12 4 = 0b1111#4 ∧
          (s.mem.word s.pc.toNat).extractLsb' 0 8 = 0x21#8 then
        s.out ++ [(s.reg 0).extractLsb' 0 8]
      else s.out

/-- What an instruction does depends on the registers it names as sources and on no other: two states that differ in
other registers alone give states that differ in those alone (10_state.md R17, 43_operate.md R100). An LD that raises
keeps its destination in both: the spec's decision D20 (log 15). -/
def Obligations.OnlyNamedRegistersAreRead : Prop :=
  ∀ (i : Instr) (s s' t t' : State), s.SameButRegs s' → (∀ k ∈ i.reads, s'.reg k = s.reg k) →
    exec i s = .next t → exec i s' = .next t' →
    t.SameButRegs t' ∧
    (∀ k, i.writes = some k → t'.reg k = t.reg k ∨
      (t.run = .faulted .invalidAddressError ∧ t.reg k = s.reg k ∧ t'.reg k = s'.reg k)) ∧
    (∀ k, i.writes ≠ some k → t.reg k = s.reg k ∧ t'.reg k = s'.reg k)

/-! ## Invariants -/

/-- The registers after reset hold their own numbers (10_state.md R18). -/
def Obligations.ResetRegistersHoldTheirNumbers : Prop := ∀ r : RegIdx, (State.reset.reg r).toNat = r.toNat

/-- The rest of the reset state (10_state.md R32). `cc` = 000, `run` = Idle and the empty output are the spec's
decisions D1, D6 and D10 (log 1, log 6, log 11). -/
def Obligations.ResetClearsTheRest : Prop :=
  State.reset.pc = 0x0000#16 ∧ State.reset.ir = 0x0000#16 ∧ State.reset.cc = 0b000#3 ∧
  (∀ a, State.reset.mem.word a = 0x0000#16) ∧ State.reset.run = .idle ∧ State.reset.out = []

/-- The reset state is legal. That its flags are 000 is the spec's decision D1 (log 1), that it is `Idle` its decision
D6 (log 6), and the canonical form of memory is the model's DESIGN CHOICE (log 14). -/
def Obligations.ResetIsLegal : Prop := State.reset.Legal

/-- Every step from a legal state answers a legal state: memory stays in its canonical form, at most one flag is set,
and a stop is explained by `pc`, `ir` and memory (10_state.md R26, 45_trap.md R111, 60_exceptions.md R126, R127). The
canonical form is the model's (log 14); legal flags before the first result rest on the spec's decision D1 (log 1),
the fault at fetch on its decision D2 (log 2), `Idle` on its decision D6 (log 6). -/
def Obligations.StepKeepsLegal : Prop := ∀ s t : State, s.Legal → step s = .next t → t.Legal

/-- In every state: `start` sets `Running` in `Idle` and has no effect in any other state, so that a halted or a faulted
machine is not resumed (50_interfaces.md R119, 10_state.md R28: the spec's decision D6, log 6); a load is accepted in
`Idle` alone, and changes memory alone (R116); a reset gives the reset state (R115). And all three keep a legal state
legal. The ports as functions are the model's (log 12), the canonical form too (log 14). -/
def Obligations.HostPortsKeepLegal : Prop :=
  ∀ s : State,
    (s.run = .idle → s.start = { s with run := .running }) ∧
    (s.run ≠ .idle → s.start = s) ∧
    (∀ ws t, s.load ws = .ok t → s.run = .idle ∧ t = { s with mem := t.mem }) ∧
    s.resetEvent = State.reset ∧
    (s.Legal → s.start.Legal ∧ s.resetEvent.Legal ∧ ∀ ws t, s.load ws = .ok t → t.Legal)

/-- Whatever the host loads and however long the machine runs, the state is legal and word 49 of memory is zero, since
a program has at most 49 words (20_memory.md R42). Which states the host can bring about is the model's (log 12), and a
legal state rests on the spec's decision D1 for the flags at reset (log 1) and on the model's canonical form of memory
(log 14). -/
def Obligations.ReachableStatesAreLegal : Prop :=
  ∀ s : State, Reachable s → s.Legal ∧ s.mem.word 49 = 0x0000#16

/-- In every reachable state stopped by `InvalidAddressError`, `pc` and `ir` tell the host which access failed: above 49
it was the fetch at `pc`, and then `ir` holds no LD whose own address at this `pc` could have failed instead; otherwise
it was the LD in `ir`, fetched from the word before `pc` (60_exceptions.md R126, with its overlap at `pc` = 50
unreachable; the fault at fetch is the spec's decision D2, log 2; which states the host can bring about is the model's,
log 12). -/
def Obligations.AddressErrorsAreToldApart : Prop :=
  ∀ s : State, Reachable s → s.run = .faulted .invalidAddressError →
    if 49 < s.pc.toNat then s.pc = 50#16 → s.ir.extractLsb' 12 4 ≠ 0b0010#4
    else
      1 ≤ s.pc.toNat ∧ s.ir = s.mem.word (s.pc.toNat - 1) ∧ s.ir.extractLsb' 12 4 = 0b0010#4 ∧
      ¬ validAddress (s.pc.toInt + (s.ir.extractLsb' 0 9).toInt)

/-! ## Datapath and memory -/

/-- The flags of a value: by its signed reading, and in bits N = v[15], Z = (v = 0), P = neither
(40_datapath_primitives.md R79). -/
def Obligations.FlagsFollowTheSign : Prop :=
  ∀ v : Word, FlagsTell (flagsOf v) v ∧
    (flagsOf v).getLsbD 2 = v.getLsbD 15 ∧ (flagsOf v).getLsbD 1 = decide (v = 0x0000#16) ∧
    (flagsOf v).getLsbD 0 = (!v.getLsbD 15 && decide (v ≠ 0x0000#16))

/-- The two ways to compute an address that the spec calls equal, over the model's accesses. LD loads or raises by the
16-bit sum of `pc` and the extended offset read signed, and where it loads that sum is its integer effective address
(44_load.md R106); a fetch succeeds or raises by `pc` read signed; and a memory read at a 16-bit value is the same
whichever view of the value is taken (20_memory.md R36). What a raising LD keeps is the spec's decision D20 (log 15), the
fault at fetch its decision D2 (log 2). -/
def Obligations.AddressViewsAgree : Prop :=
  (∀ (dr : RegIdx) (off : BitVec 9) (s : State), ∃ t, exec (.ld dr off) s = .next t ∧
    if 0 ≤ (s.pc + off.signExtend 16).toInt ∧ (s.pc + off.signExtend 16).toInt ≤ 49 then
      effectiveAddress s.pc off = (s.pc + off.signExtend 16).toInt ∧
      s.WritesOnly t dr (s.mem.word (s.pc + off.signExtend 16).toNat)
    else ¬ validAddress (effectiveAddress s.pc off) ∧ t = { s with run := .faulted .invalidAddressError }) ∧
  (∀ s : State,
    s.fetch =
      if 0 ≤ s.pc.toInt ∧ s.pc.toInt ≤ 49 then .ok { s with ir := s.mem.word s.pc.toNat, pc := s.pc + 1 }
      else .error .invalidAddressError) ∧
  (∀ (m : Memory) (v : Word), memRead m (v.toNat : Int) = memRead m v.toInt)

/-- A word written inside 0..49 is read back, every other address reads as before, and the canonical form is kept; outside
0..49 both accesses raise `InvalidAddressError` (20_memory.md R35, R36, R38). The canonical form is the model's (DESIGN
CHOICE, log 14). -/
def Obligations.MemoryReadsBackWrites : Prop :=
  ∀ (m : Memory) (a : Int) (v : Word), m.wf = true →
    if 0 ≤ a ∧ a ≤ 49 then
      ∃ m', memWrite m a v = .ok m' ∧ m'.wf = true ∧ memRead m' a = .ok v ∧ ∀ b, b ≠ a → memRead m' b = memRead m b
    else memWrite m a v = .error .invalidAddressError ∧ memRead m a = .error .invalidAddressError

/-! ## The host's side -/

/-- A program of 1 to 49 words loaded into the reset state stands at addresses 0 up with zeros after it, nothing else
changes, and once started the first step runs its first word (50_interfaces.md R116, R119,
70_reset_and_hazards.md R149). The start protocol is the spec's decision D6 (log 6), the ports as functions are the
model's (log 12), and so is the canonical form in which memory is left (DESIGN CHOICE, log 14). -/
def Obligations.LoadedProgramStartsAtItsFirstWord : Prop :=
  ∀ (w : Word) (ws : List Word), ws.length ≤ 48 →
    ∃ t, State.reset.load (w :: ws) = .ok t ∧ t.mem.wf = true ∧
      (∀ a, t.mem.word a = (w :: ws).getD a 0x0000#16) ∧
      t = { State.reset with mem := t.mem } ∧
      step t.start = exec (decode w) { t.start with ir := w, pc := 1 }

/-- When a load is refused: outside `Idle`, for no word or 50 and more, and (log 12) for a second program
(50_interfaces.md R116 to R118). -/
def Obligations.LoadRefusesTheRest : Prop :=
  ∀ (s : State) (ws : List Word),
    (s.run ≠ .idle → s.load ws = .error .notIdle) ∧
    (s.run = .idle → ws = [] ∨ 50 ≤ ws.length → s.load ws = .error .invalidProgramError) ∧
    (s.run = .idle → ws ≠ [] → ws.length ≤ 49 → s.mem ≠ [] → s.load ws = .error .secondLoad)

/-- The inspect port of a machine that is not running reads the state elements (50_interfaces.md R121). -/
def Obligations.InspectReadsTheState : Prop :=
  ∀ (s : State) (n : Nat), s.run ≠ .running →
    (∀ r : RegIdx, (s.inspect n).regs[r.toNat]'(r.isLt) = s.reg r) ∧
    (s.inspect n).mem.length = 50 ∧ (∀ a, a < 50 → (s.inspect n).mem[a]? = some (s.mem.word a)) ∧
    (s.inspect n).pc = s.pc ∧ (s.inspect n).ir = s.ir ∧ (s.inspect n).cc = s.cc

/-- A word placed where the machine fetches is the next instruction it runs, and the placing leaves every other word and
every register as it was (the model's stand-in for load and start, log 12). The canonical form assumed of memory is the
model's (DESIGN CHOICE, log 14). -/
def Obligations.PlacedWordRunsNext : Prop :=
  ∀ (s : State) (w : Nat), s.mem.wf = true → w < 65536 →
    (∀ a, a ≠ (s.withFetchWord 16 w).pc.toNat → (s.withFetchWord 16 w).mem.word a = s.mem.word a) ∧
    (s.withFetchWord 16 w).regs = s.regs ∧ (s.withFetchWord 16 w).cc = s.cc ∧ (s.withFetchWord 16 w).out = s.out ∧
    ∃ i, decodeTableWord 16 w = some i ∧
      step (s.withFetchWord 16 w) =
        exec i { s.withFetchWord 16 w with ir := BitVec.ofNat 16 w, pc := (s.withFetchWord 16 w).pc + 1 }

/-! ## Runs -/

/-- A taken BR to itself keeps a machine running for ever: after any number of steps the state is the one after the
first (42_branch.md R98, 41_fetch_decode_execute.md R93). -/
def Obligations.BranchToItselfNeverEnds : Prop :=
  ∀ (s : State) (w : Word) (n : Nat), s.AboutToRun w → w.extractLsb' 12 4 = 0b0000#4 →
    w.extractLsb' 0 9 = 0b111111111#9 → w.extractLsb' 9 3 &&& s.cc ≠ 0b000#3 →
    Host.Core.run Sys2Proof.core (n + 1) s = .next { s with ir := w }

/-- A running machine with nothing but zero words from `pc` up steps over each of them and stops at `pc` = 50 with
`InvalidAddressError` (42_branch.md R98, 70_reset_and_hazards.md R154; the fault is the spec's decision D2, log 2). -/
def Obligations.ZeroWordsRunToTheEndOfMemory : Prop :=
  ∀ (s : State) (n : Nat), s.run = .running → s.pc.toNat + n = 50 →
    (∀ a, s.pc.toNat ≤ a → a < 50 → s.mem.word a = 0x0000#16) →
    Host.Core.run Sys2Proof.core (n + 1) s =
      .next { s with
        pc := 50#16
        ir := if n = 0 then s.ir else 0x0000#16
        run := .faulted .invalidAddressError }

/-! ## The invariant that tells address errors apart -/

/-- Every step keeps the invariant by which `pc` and `ir` tell a failed fetch from a failed LD, and where it stops in
`InvalidAddressError` they do: above 49 the fetch at `pc` failed, and at `pc` = 50 `ir` holds no LD; otherwise the LD in
`ir`, fetched from the word before `pc`, failed (60_exceptions.md R126, 20_memory.md R42). The fault at fetch is the
spec's decision D2 (log 2), legal flags at reset its decision D1 (log 1), the canonical form the model's (log 14). -/
def Obligations.StepKeepsErrorsTold : Prop :=
  ∀ s t : State, s.ErrorsTold → step s = .next t →
    t.ErrorsTold ∧
    (t.run = .faulted .invalidAddressError →
      if 49 < t.pc.toNat then t.pc = 50#16 → t.ir.extractLsb' 12 4 ≠ 0b0010#4
      else
        1 ≤ t.pc.toNat ∧ t.ir = t.mem.word (t.pc.toNat - 1) ∧ t.ir.extractLsb' 12 4 = 0b0010#4 ∧
        ¬ validAddress (t.pc.toInt + (t.ir.extractLsb' 0 9).toInt))

/-- The reset state meets that invariant, and so does every state that a start or an accepted load makes of one that
does: a load places at most 49 words into a memory at its reset value (50_interfaces.md R116, R119; log 12, and the logs
of the invariant: 1, 2, 6 and 14). -/
def Obligations.ResetAndHostPortsKeepErrorsTold : Prop :=
  State.reset.ErrorsTold ∧
  ∀ s : State, s.ErrorsTold → s.start.ErrorsTold ∧ ∀ ws t, s.load ws = .ok t → t.ErrorsTold
end

