-- ==== Sys2Proof/Laws/Datapath.lean ====
section
/-! SUPPORT. The laws of the datapath and of the condition codes (40_datapath_primitives.md). -/

namespace Sys2Proof.Machine

/-! ## Flags -/

/-- Everything `flagsOf` can answer (R79). -/
theorem flagsOf_cases (v : Word) :
    (v.toInt < 0 ∧ flagsOf v = 0b100#3) ∨ (v.toInt = 0 ∧ flagsOf v = 0b010#3) ∨ (0 < v.toInt ∧ flagsOf v = 0b001#3) := by
  unfold flagsOf
  rcases lt_trichotomy v.toInt 0 with h | h | h
  · exact .inl ⟨h, if_pos h⟩
  · exact .inr (.inl ⟨h, by simp [h]⟩)
  · exact .inr (.inr ⟨h, by rw [if_neg (by omega), if_pos h]⟩)

theorem flagsOf_tells (v : Word) : FlagsTell (flagsOf v) v := by
  rcases flagsOf_cases v with ⟨h, e⟩ | ⟨h, e⟩ | ⟨h, e⟩ <;> rw [e] <;> refine ⟨?_, ?_, ?_⟩ <;> intro h' <;>
    first
    | rfl
    | omega

/-- The flags of a value are legal. -/
theorem flagsOf_legal (v : Word) : ccLegal (flagsOf v) := by
  rcases flagsOf_cases v with ⟨-, e⟩ | ⟨-, e⟩ | ⟨-, e⟩ <;> rw [e] <;> unfold ccLegal <;> decide

/-! ## Addition -/

/-- The two views of a sum agree: the signed sum written back is the sum of the bits modulo 2^16 (R73). -/
theorem aluAdd_eq_add (a b : Word) : aluAdd a b = a + b := by
  apply BitVec.eq_of_toInt_eq
  simp [aluAdd, writeSigned, BitVec.toInt_add]

theorem aluAdd_toNat (a b : Word) : (aluAdd a b).toNat = (a.toNat + b.toNat) % 65536 := by
  rw [aluAdd_eq_add, BitVec.toNat_add]

/-! ## Addresses -/

/-- The unsigned and the signed view of a 16-bit value agree on being a valid address (20_memory.md R36). -/
theorem validAddress_toNat_iff_toInt (v : Word) : validAddress (v.toNat : Int) ↔ validAddress v.toInt := by
  have := v.isLt
  unfold validAddress
  rw [BitVec.toInt_eq_toNat_cond]
  split <;> omega

theorem validAddress_toNat (v : Word) : validAddress (v.toNat : Int) ↔ v.toNat ≤ 49 := by
  unfold validAddress; omega

/-- A post-increment `pc` is one more than the address fetched (41_fetch_decode_execute.md R88). -/
theorem toNat_incr {pc : Word} (h : pc.toNat ≤ 49) : (pc + 1).toNat = pc.toNat + 1 := by
  rw [BitVec.toNat_add]; simp; omega

end Sys2Proof.Machine
end

