-- ==== Sys2Proof/Laws/Decode.lean ====
section
/-! SUPPORT. The decoder, one opcode at a time, and the document's field notation. -/

namespace Sys2Proof

/-! ## The document's notation: `bits[o:w)` is `substring o w` (00_scope.md R8, 30_encoding.md R53) -/

theorem opcodeOf_eq_substring (w : Word) : opcodeOf w = substring w 0 4 := rfl
theorem nzpOf_eq_substring (w : Word) : nzpOf w = substring w 4 3 := rfl
theorem drOf_eq_substring (w : Word) : drOf w = substring w 4 3 := rfl
theorem sr1Of_eq_substring (w : Word) : sr1Of w = substring w 7 3 := rfl
theorem sr2Of_eq_substring (w : Word) : sr2Of w = substring w 13 3 := rfl
theorem imm5Of_eq_substring (w : Word) : imm5Of w = substring w 11 5 := rfl
theorem pcOffset9Of_eq_substring (w : Word) : pcOffset9Of w = substring w 7 9 := rfl
theorem vectorOf_eq_substring (w : Word) : vectorOf w = substring w 8 8 := rfl

/-! ## The opcode map (30_encoding.md R60) -/

theorem decode_br {w : Word} (h : opcodeOf w = 0b0000#4) : decode w = .br (nzpOf w) (pcOffset9Of w) := by
  unfold decode; rw [h]; rfl

theorem decode_add {w : Word} (h : opcodeOf w = 0b0001#4) :
    decode w = if modeOf w then .addImm (drOf w) (sr1Of w) (imm5Of w) else .addReg (drOf w) (sr1Of w) (sr2Of w) := by
  unfold decode; rw [h]; rfl

theorem decode_ld {w : Word} (h : opcodeOf w = 0b0010#4) : decode w = .ld (drOf w) (pcOffset9Of w) := by
  unfold decode; rw [h]; rfl

theorem decode_and {w : Word} (h : opcodeOf w = 0b0101#4) :
    decode w = if modeOf w then .andImm (drOf w) (sr1Of w) (imm5Of w) else .andReg (drOf w) (sr1Of w) (sr2Of w) := by
  unfold decode; rw [h]; rfl

theorem decode_not {w : Word} (h : opcodeOf w = 0b1001#4) : decode w = .not (drOf w) (sr1Of w) := by
  unfold decode; rw [h]; rfl

theorem decode_trap {w : Word} (h : opcodeOf w = 0b1111#4) : decode w = .trap (vectorOf w) := by
  unfold decode; rw [h]; rfl

/-- A 4-bit opcode is one of sixteen. -/
theorem opcode_cases (o : BitVec 4) :
    o = 0b0000#4 ∨ o = 0b0001#4 ∨ o = 0b0010#4 ∨ o = 0b0011#4 ∨ o = 0b0100#4 ∨ o = 0b0101#4 ∨ o = 0b0110#4 ∨
      o = 0b0111#4 ∨ o = 0b1000#4 ∨ o = 0b1001#4 ∨ o = 0b1010#4 ∨ o = 0b1011#4 ∨ o = 0b1100#4 ∨ o = 0b1101#4 ∨
      o = 0b1110#4 ∨ o = 0b1111#4 := by
  revert o; decide

/-- An unlisted opcode decodes to a row that is no instruction (R65), by the ten opcodes. -/
theorem decode_illegal {w : Word}
    (h : opcodeOf w ∉ [0b0000#4, 0b0001#4, 0b0010#4, 0b0101#4, 0b1001#4, 0b1111#4]) :
    decode w = .illegal0011 ∨ decode w = .illegal0100 ∨ decode w = .illegal0110 ∨ decode w = .illegal0111 ∨
      decode w = .illegal1000 ∨ decode w = .illegal1010 ∨ decode w = .illegal1011 ∨ decode w = .illegal1100 ∨
      decode w = .illegal1101 ∨ decode w = .illegal1110 := by
  unfold decode
  generalize opcodeOf w = o at h
  rcases opcode_cases o with rfl | rfl | rfl | rfl | rfl | rfl | rfl | rfl | rfl | rfl | rfl | rfl | rfl | rfl | rfl | rfl <;>
    first
    | exact absurd (by decide) h
    | simp

/-! ## Fields of a joined word -/

/-- The low part of a joined word. -/
theorem extractLsb'_append_low {n k : Nat} (a : BitVec n) (b : BitVec k) : (a ++ b).extractLsb' 0 k = b := by
  refine BitVec.eq_of_getLsbD_eq fun i hi => ?_
  rw [BitVec.getLsbD_extractLsb', BitVec.getLsbD_append]
  simp [hi]

/-- A field that starts above the low part is a field of the high part. -/
theorem extractLsb'_append_high {n k : Nat} (a : BitVec n) (b : BitVec k) (o l : Nat) :
    (a ++ b).extractLsb' (k + o) l = a.extractLsb' o l := by
  refine BitVec.eq_of_getLsbD_eq fun i hi => ?_
  rw [BitVec.getLsbD_extractLsb', BitVec.getLsbD_append, BitVec.getLsbD_extractLsb']
  simp [show ¬ k + o + i < k by omega, show k + o + i - k = o + i by omega]

/-- A field inside the low part is a field of the low part. -/
theorem extractLsb'_append_of_le {n k : Nat} (a : BitVec n) (b : BitVec k) {o l : Nat} (h : o + l ≤ k) :
    (a ++ b).extractLsb' o l = b.extractLsb' o l := by
  refine BitVec.eq_of_getLsbD_eq fun i hi => ?_
  rw [BitVec.getLsbD_extractLsb', BitVec.getLsbD_append, BitVec.getLsbD_extractLsb']
  simp [show o + i < k by omega]

/-- The whole of a value, as a field. -/
theorem extractLsb'_whole {n : Nat} (a : BitVec n) : a.extractLsb' 0 n = a := by
  refine BitVec.eq_of_getLsbD_eq fun i hi => ?_
  rw [BitVec.getLsbD_extractLsb']
  simp [hi]

end Sys2Proof
end

