-- ==== Sys2Proof/Laws/Memory.lean ====
section
/-! SUPPORT. The laws of memory: a write is read back, leaves every other place alone and keeps the canonical form;
memories of that form that read alike are equal. -/

namespace Sys2Proof.Machine

/-! ## Cells -/

/-- The canonical form, one cell at a time. -/
theorem Memory.wfFrom_cell {lo : Nat} {c : Host.Cell} {m : Memory} :
    Memory.wfFrom lo (c :: m) = true ↔
      lo ≤ c.1 ∧ c.1 < Memory.size ∧ c.2 ≠ Memory.unlisted ∧ Memory.wfFrom (c.1 + 1) m = true := by
  simp only [Memory.wfFrom, Bool.and_eq_true, decide_eq_true_eq, and_assoc]

theorem Memory.wfFrom_mono {lo lo' : Nat} (h : lo' ≤ lo) {m : Memory} (hm : Memory.wfFrom lo m = true) :
    Memory.wfFrom lo' m = true := by
  cases m with
  | nil => rfl
  | cons c m =>
    rw [Memory.wfFrom_cell] at hm ⊢
    exact ⟨h.trans hm.1, hm.2⟩

/-- A canonical memory starts at its first cell. -/
theorem Memory.wfFrom_self {lo : Nat} {c : Host.Cell} {m : Memory} (h : Memory.wfFrom lo (c :: m) = true) :
    Memory.wfFrom c.1 (c :: m) = true :=
  Memory.wfFrom_cell.mpr ⟨Nat.le_refl _, (Memory.wfFrom_cell.mp h).2⟩

/-- Below its first address a memory reads as unlisted. -/
theorem Memory.byte_of_lt {m : Memory} {lo a : Nat} (hm : Memory.wfFrom lo m = true) (h : a < lo) :
    m.byte a = Memory.unlisted := by
  induction m generalizing lo with
  | nil => rfl
  | cons c m ih =>
    rw [Memory.wfFrom_cell] at hm
    simp only [Memory.byte, if_neg (show c.1 ≠ a by omega)]
    exact ih hm.2.2.2 (by omega)

theorem Memory.byte_cons_same {m : Memory} {a : Nat} (v : BitVec 8) (h : m.byte a = Memory.unlisted) :
    (Memory.cons a v m).byte a = v := by
  unfold Memory.cons
  split
  · next hv => rw [h, hv]
  · simp [Memory.byte]

theorem Memory.byte_cons_ne {m : Memory} {a x : Nat} (v : BitVec 8) (h : x ≠ a) :
    (Memory.cons a v m).byte x = m.byte x := by
  unfold Memory.cons
  split
  · rfl
  · simp [Memory.byte, Ne.symm h]

theorem Memory.byte_setByte_same {m : Memory} {lo : Nat} (a : Nat) (v : BitVec 8) (hm : Memory.wfFrom lo m = true) :
    (m.setByte a v).byte a = v := by
  induction m generalizing lo with
  | nil => exact Memory.byte_cons_same v rfl
  | cons c m ih =>
    have hc := hm
    rw [Memory.wfFrom_cell] at hm
    unfold Memory.setByte
    split
    · next h =>
      exact Memory.byte_cons_same v (Memory.byte_of_lt (Memory.wfFrom_self hc) h)
    · split
      · next h => exact Memory.byte_cons_same v (Memory.byte_of_lt hm.2.2.2 (by omega))
      · next h => simp only [Memory.byte, if_neg (Ne.symm h)]; exact ih hm.2.2.2

/-- A write leaves every other cell alone, whatever the memory. -/
theorem Memory.byte_setByte_ne (m : Memory) {a x : Nat} (v : BitVec 8) (h : x ≠ a) :
    (m.setByte a v).byte x = m.byte x := by
  induction m with
  | nil => exact Memory.byte_cons_ne v h
  | cons c m ih =>
    unfold Memory.setByte
    split
    · exact Memory.byte_cons_ne v h
    · split
      · next hc => rw [Memory.byte_cons_ne v h]; simp only [Memory.byte, if_neg (show c.1 ≠ x by omega)]
      · simp only [Memory.byte, ih]

theorem Memory.wfFrom_cons {m : Memory} {lo a : Nat} (v : BitVec 8) (hl : lo ≤ a) (ha : a < Memory.size)
    (hm : Memory.wfFrom (a + 1) m = true) : Memory.wfFrom lo (Memory.cons a v m) = true := by
  unfold Memory.cons
  split
  · exact Memory.wfFrom_mono (by omega) hm
  · next hv => exact Memory.wfFrom_cell.mpr ⟨hl, ha, hv, hm⟩

theorem Memory.wfFrom_setByte {m : Memory} {lo a : Nat} (v : BitVec 8) (hl : lo ≤ a) (ha : a < Memory.size)
    (hm : Memory.wfFrom lo m = true) : Memory.wfFrom lo (m.setByte a v) = true := by
  induction m generalizing lo with
  | nil => exact Memory.wfFrom_cons v hl ha rfl
  | cons c m ih =>
    rw [Memory.wfFrom_cell] at hm
    unfold Memory.setByte
    split
    · next h =>
      refine Memory.wfFrom_cons v hl ha ?_
      exact Memory.wfFrom_cell.mpr ⟨h, hm.2⟩
    · split
      · next h => exact Memory.wfFrom_cons v hl ha (h ▸ hm.2.2.2)
      · exact Memory.wfFrom_cell.mpr ⟨hm.1, hm.2.1, hm.2.2.1, ih (by omega) hm.2.2.2⟩

/-- Cells outside the 50 words read as unlisted. -/
theorem Memory.byte_of_size_le {m : Memory} {lo a : Nat} (hm : Memory.wfFrom lo m = true) (h : Memory.size ≤ a) :
    m.byte a = Memory.unlisted := by
  induction m generalizing lo with
  | nil => rfl
  | cons c m ih =>
    rw [Memory.wfFrom_cell] at hm
    simp only [Memory.byte, if_neg (show c.1 ≠ a by omega)]
    exact ih hm.2.2.2

/-- Canonical memories with the same cells are the same data. -/
theorem Memory.ext_byte {m m' : Memory} {lo : Nat} (hm : Memory.wfFrom lo m = true) (hm' : Memory.wfFrom lo m' = true)
    (h : ∀ a, m.byte a = m'.byte a) : m = m' := by
  induction m generalizing lo m' with
  | nil =>
    cases m' with
    | nil => rfl
    | cons d m' =>
      rw [Memory.wfFrom_cell] at hm'
      exact absurd (by simpa [Memory.byte] using (h d.1).symm) hm'.2.2.1
  | cons c m ih =>
    have hc := hm
    rw [Memory.wfFrom_cell] at hm
    cases m' with
    | nil => exact absurd (by simpa [Memory.byte] using h c.1) hm.2.2.1
    | cons d m' =>
      have hd := hm'
      rw [Memory.wfFrom_cell] at hm'
      have hcd : c.1 = d.1 := by
        rcases Nat.lt_trichotomy c.1 d.1 with hlt | heq | hlt
        · have hr : Memory.byte (d :: m') c.1 = Memory.unlisted := Memory.byte_of_lt (Memory.wfFrom_self hd) hlt
          exact absurd (by simpa [Memory.byte] using (h c.1).trans hr) hm.2.2.1
        · exact heq
        · have hr : Memory.byte (c :: m) d.1 = Memory.unlisted := Memory.byte_of_lt (Memory.wfFrom_self hc) hlt
          exact absurd (by simpa [Memory.byte] using (h d.1).symm.trans hr) hm'.2.2.1
      have hv : c.2 = d.2 := by simpa [Memory.byte, hcd] using h c.1
      have hrest : m = m' := by
        refine ih hm.2.2.2 (hcd ▸ hm'.2.2.2) fun a => ?_
        by_cases ha : a ≤ c.1
        · rw [Memory.byte_of_lt hm.2.2.2 (by omega), Memory.byte_of_lt hm'.2.2.2 (by omega)]
        · simpa [Memory.byte, show c.1 ≠ a by omega, show d.1 ≠ a by omega] using h a
      rw [hrest, Prod.ext hcd hv]

/-! ## Words -/

theorem Memory.wf_nil : Memory.wf [] = true := rfl

@[simp] theorem Memory.word_nil (a : Nat) : Memory.word [] a = 0 := by
  simp only [Memory.word, Memory.byte]; decide

theorem Memory.setWord_wf {m : Memory} {a : Nat} (v : Word) (hm : m.wf = true) (ha : a < Config.memWords) :
    (m.setWord a v).wf = true := by
  simp only [Config.memWords] at ha
  exact Memory.wfFrom_setByte _ (Nat.zero_le _) (by simp; omega)
    (Memory.wfFrom_setByte _ (Nat.zero_le _) (by simp; omega) hm)

theorem Memory.word_setWord_ne (m : Memory) {a x : Nat} (v : Word) (h : x ≠ a) : (m.setWord a v).word x = m.word x := by
  unfold Memory.word Memory.setWord
  rw [Memory.byte_setByte_ne _ _ (by omega), Memory.byte_setByte_ne _ _ (by omega),
    Memory.byte_setByte_ne _ _ (by omega), Memory.byte_setByte_ne _ _ (by omega)]

theorem append_halves (v : Word) : v.extractLsb' 8 8 ++ v.extractLsb' 0 8 = v := by
  apply BitVec.eq_of_getLsbD_eq
  intro i hi
  simp only [BitVec.getLsbD_append, BitVec.getLsbD_extractLsb']
  by_cases h : i < 8
  · simp [h]
  · simp [h, show i - 8 < 8 by omega, show 8 + (i - 8) = i by omega]

theorem append_inj {a b c d : BitVec 8} (h : a ++ b = c ++ d) : a = c ∧ b = d := by
  constructor <;> refine BitVec.eq_of_getLsbD_eq fun i hi => ?_
  · have := congrArg (fun x => BitVec.getLsbD x (i + 8)) h
    beta_reduce at this
    rw [BitVec.getLsbD_append, BitVec.getLsbD_append] at this
    simpa using this
  · have := congrArg (fun x => BitVec.getLsbD x i) h
    beta_reduce at this
    rw [BitVec.getLsbD_append, BitVec.getLsbD_append] at this
    simpa [hi] using this

theorem Memory.word_setWord_same {m : Memory} (a : Nat) (v : Word) (hm : m.wf = true) (ha : a < Config.memWords) :
    (m.setWord a v).word a = v := by
  have h1 : Memory.wfFrom 0 (m.setByte (2 * a) (v.extractLsb' 0 8)) = true :=
    Memory.wfFrom_setByte _ (Nat.zero_le _) (by simp only [Config.memWords] at ha; simp; omega) hm
  unfold Memory.word Memory.setWord
  rw [Memory.byte_setByte_same _ _ h1, Memory.byte_setByte_ne _ _ (by omega), Memory.byte_setByte_same _ _ hm]
  exact append_halves v

/-- Canonical memories with the same 50 words are the same data: the cells are only a way to write the words down. -/
theorem Memory.ext_word {m m' : Memory} (hm : m.wf = true) (hm' : m'.wf = true)
    (h : ∀ a, a < Config.memWords → m.word a = m'.word a) : m = m' := by
  refine Memory.ext_byte hm hm' fun a => ?_
  by_cases ha : Memory.size ≤ a
  · rw [Memory.byte_of_size_le hm ha, Memory.byte_of_size_le hm' ha]
  · have hw := h (a / 2) (by simp at ha ⊢; omega)
    unfold Memory.word at hw
    have hw := append_inj hw
    rcases Nat.mod_two_eq_zero_or_one a with h2 | h2
    · simpa [show 2 * (a / 2) = a by omega] using hw.2
    · simpa [show 2 * (a / 2) + 1 = a by omega] using hw.1

/-! ## The read and write primitives -/

theorem memRead_of_valid (m : Memory) {addr : Int} (h : validAddress addr) : memRead m addr = .ok (m.word addr.toNat) :=
  if_pos h

theorem memRead_of_invalid (m : Memory) {addr : Int} (h : ¬ validAddress addr) :
    memRead m addr = .error .invalidAddressError :=
  if_neg h

/-- Everything a read can answer. -/
theorem memRead_cases (m : Memory) (addr : Int) :
    (validAddress addr ∧ memRead m addr = .ok (m.word addr.toNat)) ∨
      (¬ validAddress addr ∧ memRead m addr = .error .invalidAddressError) := by
  by_cases h : validAddress addr
  · exact .inl ⟨h, memRead_of_valid m h⟩
  · exact .inr ⟨h, memRead_of_invalid m h⟩

theorem memWrite_of_valid (m : Memory) {addr : Int} (v : Word) (h : validAddress addr) :
    memWrite m addr v = .ok (m.setWord addr.toNat v) :=
  if_pos h

end Sys2Proof.Machine
end

