-- ==== Sys2Proof/Laws/State.lean ====
section
/-! SUPPORT. One lemma per field of the state for each update of it. -/

namespace Sys2Proof.Machine

variable (s : State) (r k : RegIdx) (v : Word) (e : Fault) (c : Byte)

/-! ## Registers -/

@[simp] theorem State.setReg_pc : (s.setReg r v).pc = s.pc := rfl
@[simp] theorem State.setReg_ir : (s.setReg r v).ir = s.ir := rfl
@[simp] theorem State.setReg_cc : (s.setReg r v).cc = s.cc := rfl
@[simp] theorem State.setReg_mem : (s.setReg r v).mem = s.mem := rfl
@[simp] theorem State.setReg_run : (s.setReg r v).run = s.run := rfl
@[simp] theorem State.setReg_out : (s.setReg r v).out = s.out := rfl

@[simp] theorem State.reg_setReg_same : (s.setReg r v).reg r = v := by
  simp [State.reg, State.setReg]

theorem State.reg_setReg_ne (h : k ≠ r) : (s.setReg r v).reg k = s.reg k := by
  have h' : r.toNat ≠ k.toNat := fun hn => h (BitVec.eq_of_toNat_eq hn.symm)
  simp [State.reg, State.setReg, h']

theorem State.reg_setReg : (s.setReg r v).reg k = if k = r then v else s.reg k := by
  split
  · next h => subst h; exact State.reg_setReg_same s k v
  · next h => exact State.reg_setReg_ne s r k v h

/-- Two register files that read alike are equal. -/
theorem State.regs_ext {s t : State} (h : ∀ k, t.reg k = s.reg k) : t.regs = s.regs := by
  apply Vector.ext
  intro i hi
  have := h (BitVec.ofNat 3 i)
  simpa [State.reg, BitVec.toNat_ofNat, Nat.mod_eq_of_lt hi] using this

/-! ## Condition codes -/

@[simp] theorem State.setCC_reg : (s.setCC v).reg k = s.reg k := rfl
@[simp] theorem State.setCC_regs : (s.setCC v).regs = s.regs := rfl
@[simp] theorem State.setCC_pc : (s.setCC v).pc = s.pc := rfl
@[simp] theorem State.setCC_ir : (s.setCC v).ir = s.ir := rfl
@[simp] theorem State.setCC_cc : (s.setCC v).cc = flagsOf v := rfl
@[simp] theorem State.setCC_mem : (s.setCC v).mem = s.mem := rfl
@[simp] theorem State.setCC_run : (s.setCC v).run = s.run := rfl
@[simp] theorem State.setCC_out : (s.setCC v).out = s.out := rfl

/-! ## The end of a result-producing instruction -/

@[simp] theorem State.writeResult_pc : (s.writeResult r v).pc = s.pc := rfl
@[simp] theorem State.writeResult_ir : (s.writeResult r v).ir = s.ir := rfl
@[simp] theorem State.writeResult_cc : (s.writeResult r v).cc = flagsOf v := rfl
@[simp] theorem State.writeResult_mem : (s.writeResult r v).mem = s.mem := rfl
@[simp] theorem State.writeResult_run : (s.writeResult r v).run = s.run := rfl
@[simp] theorem State.writeResult_out : (s.writeResult r v).out = s.out := rfl

theorem State.reg_writeResult : (s.writeResult r v).reg k = if k = r then v else s.reg k :=
  State.reg_setReg s r k v

/-! ## Stopping and output -/

@[simp] theorem State.raise_reg : (s.raise e).reg k = s.reg k := rfl
@[simp] theorem State.raise_regs : (s.raise e).regs = s.regs := rfl
@[simp] theorem State.raise_pc : (s.raise e).pc = s.pc := rfl
@[simp] theorem State.raise_ir : (s.raise e).ir = s.ir := rfl
@[simp] theorem State.raise_cc : (s.raise e).cc = s.cc := rfl
@[simp] theorem State.raise_mem : (s.raise e).mem = s.mem := rfl
@[simp] theorem State.raise_run : (s.raise e).run = .faulted e := rfl
@[simp] theorem State.raise_out : (s.raise e).out = s.out := rfl

@[simp] theorem State.halt_reg : s.halt.reg k = s.reg k := rfl
@[simp] theorem State.halt_regs : s.halt.regs = s.regs := rfl
@[simp] theorem State.halt_pc : s.halt.pc = s.pc := rfl
@[simp] theorem State.halt_ir : s.halt.ir = s.ir := rfl
@[simp] theorem State.halt_cc : s.halt.cc = s.cc := rfl
@[simp] theorem State.halt_mem : s.halt.mem = s.mem := rfl
@[simp] theorem State.halt_run : s.halt.run = .halted := rfl
@[simp] theorem State.halt_out : s.halt.out = s.out := rfl

@[simp] theorem State.emit_reg : (s.emit c).reg k = s.reg k := rfl
@[simp] theorem State.emit_regs : (s.emit c).regs = s.regs := rfl
@[simp] theorem State.emit_pc : (s.emit c).pc = s.pc := rfl
@[simp] theorem State.emit_ir : (s.emit c).ir = s.ir := rfl
@[simp] theorem State.emit_cc : (s.emit c).cc = s.cc := rfl
@[simp] theorem State.emit_mem : (s.emit c).mem = s.mem := rfl
@[simp] theorem State.emit_run : (s.emit c).run = s.run := rfl
@[simp] theorem State.emit_out : (s.emit c).out = s.out ++ [c] := rfl

end Sys2Proof.Machine
end

