-- ==== Sys2Proof/Laws/HostPort.lean ====
section
/-! SUPPORT. What the host's ports do (50_interfaces.md). -/

namespace Sys2Proof.Machine

/-- Placing words that fit never fails, keeps the canonical form, and puts each word at its address
(50_interfaces.md R116, R118). -/
theorem placeWords_spec (ws : List Word) :
    ∀ (m : Memory) (i : Nat), m.wf = true → i + ws.length ≤ Config.memWords →
      ∃ m', placeWords m i ws = .ok m' ∧ m'.wf = true ∧
        ∀ a, m'.word a = if h : i ≤ a ∧ a - i < ws.length then ws[a - i] else m.word a := by
  induction ws with
  | nil => intro m i hm _; exact ⟨m, rfl, hm, fun a => by simp⟩
  | cons w ws ih =>
    intro m i hm hi
    have hl : i < Config.memWords := by simp only [List.length_cons] at hi; omega
    have hv : validAddress (i : Int) := by simp only [Config.memWords] at hl; unfold validAddress; omega
    obtain ⟨m', h1, h2, h3⟩ := ih (m.setWord i w) (i + 1) (Memory.setWord_wf w hm hl)
      (by simp only [List.length_cons] at hi; omega)
    refine ⟨m', ?_, h2, fun a => ?_⟩
    · unfold placeWords
      rw [memWrite_of_valid m w hv]
      exact h1
    · rw [h3 a]
      rcases Nat.lt_trichotomy a i with ha | ha | ha
      · rw [dif_neg (by omega), dif_neg (by omega), Memory.word_setWord_ne m w (by omega)]
      · subst ha
        rw [dif_neg (by omega), dif_pos ⟨Nat.le_refl a, by simp⟩, Memory.word_setWord_same a w hm hl]
        simp
      · rw [Memory.word_setWord_ne m w (by omega)]
        obtain ⟨j, rfl⟩ : ∃ j, a = i + 1 + j := ⟨a - (i + 1), by omega⟩
        have e1 : i + 1 + j - (i + 1) = j := by omega
        have e2 : i + 1 + j - i = j + 1 := by omega
        simp only [e1, e2, List.length_cons, List.getElem_cons_succ]
        by_cases hj : j < ws.length
        · rw [dif_pos ⟨by omega, hj⟩, dif_pos ⟨by omega, by omega⟩]
        · rw [dif_neg (fun h => hj h.2), dif_neg (fun h => hj (by omega))]

/-- A load that is accepted changes memory alone, and only in `Idle` with an empty memory. -/
theorem load_cases {s t : State} {ws : List Word} (h : s.load ws = .ok t) :
    s.run = .idle ∧ 1 ≤ ws.length ∧ ws.length ≤ Config.progMax ∧ s.mem = [] ∧
      ∃ m, placeWords [] 0 ws = .ok m ∧ t = { s with mem := m } := by
  unfold State.load at h
  split at h
  · cases h
  · next h1 =>
    split at h
    · cases h
    · next h2 =>
      split at h
      · cases h
      · next h3 =>
        have h3 : s.mem = [] := by simpa using h3
        rw [h3] at h
        split at h
        · cases h
        · next m hm => cases h; exact ⟨by simpa using h1, by omega, by omega, h3, m, hm, rfl⟩

/-- What an accepted load leaves: memory canonical with its last word zero, and nothing else changed
(50_interfaces.md R116, 20_memory.md R42). -/
theorem load_spec {s t : State} {ws : List Word} (h : s.load ws = .ok t) :
    s.run = .idle ∧ t = { s with mem := t.mem } ∧ t.mem.wf = true ∧ t.mem.word 49 = 0 := by
  obtain ⟨h1, -, h3, -, m, hm, rfl⟩ := load_cases h
  simp only [Config.progMax] at h3
  obtain ⟨m', e, hw, hv⟩ := placeWords_spec ws [] 0 Memory.wf_nil (by simp only [Config.memWords]; omega)
  rw [hm] at e; cases e
  refine ⟨h1, rfl, hw, ?_⟩
  change m.word 49 = 0
  rw [hv, dif_neg (by omega), Memory.word_nil]

theorem start_of_idle {s : State} (h : s.run = .idle) : s.start = { s with run := .running } := if_pos h

theorem start_of_ne_idle {s : State} (h : s.run ≠ .idle) : s.start = s := if_neg h

end Sys2Proof.Machine
end

