-- ==== Sys2Proof/Laws/PerInstr.lean ====
section
/-! SUPPORT. Facts about every instruction as syntax, one lemma per constructor. -/

namespace Sys2Proof.Laws.FixedBits

/-- The opcode of the instruction's row in spec/opcode_table.json (30_encoding.md R60). -/
def opcode : Instr → BitVec 4
  | .br _ _ => 0b0000#4
  | .addReg _ _ _ => 0b0001#4
  | .addImm _ _ _ => 0b0001#4
  | .ld _ _ => 0b0010#4
  | .andReg _ _ _ => 0b0101#4
  | .andImm _ _ _ => 0b0101#4
  | .not _ _ => 0b1001#4
  | .trap _ => 0b1111#4
  | .illegal0011 => 0b0011#4
  | .illegal0100 => 0b0100#4
  | .illegal0110 => 0b0110#4
  | .illegal0111 => 0b0111#4
  | .illegal1000 => 0b1000#4
  | .illegal1010 => 0b1010#4
  | .illegal1011 => 0b1011#4
  | .illegal1100 => 0b1100#4
  | .illegal1101 => 0b1101#4
  | .illegal1110 => 0b1110#4

/-- The mode bit its row fixes, if it fixes one (R63). -/
def mode : Instr → Option Bool
  | .addReg _ _ _ => some false
  | .addImm _ _ _ => some true
  | .andReg _ _ _ => some false
  | .andImm _ _ _ => some true
  | .br _ _ => none
  | .ld _ _ => none
  | .not _ _ => none
  | .trap _ => none
  | .illegal0011 => none
  | .illegal0100 => none
  | .illegal0110 => none
  | .illegal0111 => none
  | .illegal1000 => none
  | .illegal1010 => none
  | .illegal1011 => none
  | .illegal1100 => none
  | .illegal1101 => none
  | .illegal1110 => none

/-- The word the encoder writes has its row's fixed bits: the opcode and, where the row fixes it, the mode bit. -/
def Statement (i : Instr) : Prop :=
  opcodeOf (encode i) = opcode i ∧ ∀ b, mode i = some b → modeOf (encode i) = b

/-- The opcode on top of 12 bits in two parts. -/
theorem opcode_two {n k : Nat} (o : BitVec 4) (a : BitVec n) (b : BitVec k) :
    (o ++ a ++ b).extractLsb' (k + (n + 0)) 4 = o := by
  rw [extractLsb'_append_high, extractLsb'_append_high, extractLsb'_whole]

/-- The opcode on top of 12 bits in three parts. -/
theorem opcode_three {n k l : Nat} (o : BitVec 4) (a : BitVec n) (b : BitVec k) (c : BitVec l) :
    (o ++ a ++ b ++ c).extractLsb' (l + (k + (n + 0))) 4 = o := by
  rw [extractLsb'_append_high, opcode_two]

/-- The opcode on top of 12 bits in four parts. -/
theorem opcode_four {n k l j : Nat} (o : BitVec 4) (a : BitVec n) (b : BitVec k) (c : BitVec l) (d : BitVec j) :
    (o ++ a ++ b ++ c ++ d).extractLsb' (j + (l + (k + (n + 0)))) 4 = o := by
  rw [extractLsb'_append_high, opcode_three]

/-- The top bit of the middle part `m` of a joined value. -/
theorem bit_append {n k l : Nat} (a : BitVec n) (m : BitVec (k + 1)) (b : BitVec l) :
    (a ++ m ++ b).getLsbD (l + k) = m.getLsbD k := by
  rw [BitVec.getLsbD_append, BitVec.getLsbD_append]
  simp

theorem br (nzp : CC) (off : BitVec 9) : Statement (.br nzp off) := ⟨opcode_two _ nzp off, nofun⟩
theorem addReg (dr sr1 sr2 : RegIdx) : Statement (.addReg dr sr1 sr2) :=
  ⟨opcode_four _ dr sr1 _ sr2, fun _ h => (bit_append (_ ++ dr ++ sr1) _ sr2).trans (Option.some.inj h)⟩
theorem addImm (dr sr1 : RegIdx) (imm : BitVec 5) : Statement (.addImm dr sr1 imm) :=
  ⟨opcode_four _ dr sr1 _ imm, fun _ h => (bit_append (_ ++ dr ++ sr1) _ imm).trans (Option.some.inj h)⟩
theorem ld (dr : RegIdx) (off : BitVec 9) : Statement (.ld dr off) := ⟨opcode_two _ dr off, nofun⟩
theorem andReg (dr sr1 sr2 : RegIdx) : Statement (.andReg dr sr1 sr2) :=
  ⟨opcode_four _ dr sr1 _ sr2, fun _ h => (bit_append (_ ++ dr ++ sr1) _ sr2).trans (Option.some.inj h)⟩
theorem andImm (dr sr1 : RegIdx) (imm : BitVec 5) : Statement (.andImm dr sr1 imm) :=
  ⟨opcode_four _ dr sr1 _ imm, fun _ h => (bit_append (_ ++ dr ++ sr1) _ imm).trans (Option.some.inj h)⟩
theorem not (dr sr : RegIdx) : Statement (.not dr sr) := ⟨opcode_three _ dr sr _, nofun⟩
theorem trap (vector : BitVec 8) : Statement (.trap vector) := ⟨opcode_two _ _ vector, nofun⟩
theorem illegal0011 : Statement .illegal0011 := ⟨rfl, nofun⟩
theorem illegal0100 : Statement .illegal0100 := ⟨rfl, nofun⟩
theorem illegal0110 : Statement .illegal0110 := ⟨rfl, nofun⟩
theorem illegal0111 : Statement .illegal0111 := ⟨rfl, nofun⟩
theorem illegal1000 : Statement .illegal1000 := ⟨rfl, nofun⟩
theorem illegal1010 : Statement .illegal1010 := ⟨rfl, nofun⟩
theorem illegal1011 : Statement .illegal1011 := ⟨rfl, nofun⟩
theorem illegal1100 : Statement .illegal1100 := ⟨rfl, nofun⟩
theorem illegal1101 : Statement .illegal1101 := ⟨rfl, nofun⟩
theorem illegal1110 : Statement .illegal1110 := ⟨rfl, nofun⟩

end Sys2Proof.Laws.FixedBits
end

