-- ==== Sys2Proof/Laws/Step.lean ====
section
/-! SUPPORT. What the fetch, an instruction and a step can do, said once. -/

namespace Sys2Proof.Machine

/-- The state an instruction is given: the word in `ir`, `pc` incremented (41_fetch_decode_execute.md R86). -/
def State.fetched (s : State) : State := { s with ir := s.mem.word s.pc.toNat, pc := s.pc + 1 }

@[simp] theorem State.fetched_reg (s : State) (k : RegIdx) : s.fetched.reg k = s.reg k := rfl
@[simp] theorem State.fetched_regs (s : State) : s.fetched.regs = s.regs := rfl
@[simp] theorem State.fetched_pc (s : State) : s.fetched.pc = s.pc + 1 := rfl
@[simp] theorem State.fetched_ir (s : State) : s.fetched.ir = s.mem.word s.pc.toNat := rfl
@[simp] theorem State.fetched_cc (s : State) : s.fetched.cc = s.cc := rfl
@[simp] theorem State.fetched_mem (s : State) : s.fetched.mem = s.mem := rfl
@[simp] theorem State.fetched_run (s : State) : s.fetched.run = s.run := rfl
@[simp] theorem State.fetched_out (s : State) : s.fetched.out = s.out := rfl

theorem fetch_of_le {s : State} (h : s.pc.toNat ≤ 49) : s.fetch = .ok s.fetched := by
  unfold State.fetch
  rw [memRead_of_valid _ ((validAddress_toNat s.pc).mpr h)]
  rfl

theorem fetch_of_lt {s : State} (h : 49 < s.pc.toNat) : s.fetch = .error .invalidAddressError := by
  unfold State.fetch
  rw [memRead_of_invalid _ (fun hv => by have := (validAddress_toNat s.pc).mp hv; omega)]

/-- A word placed where the machine fetches is about to run, inside memory and in canonical form (log 12). -/
theorem aboutToFetch_aboutToRun {s : State} (w : Word) (hm : s.mem.wf = true) :
    (s.aboutToFetch w).AboutToRun w ∧ (s.aboutToFetch w).mem.wf = true := by
  unfold State.aboutToFetch
  split
  · next h =>
    simp only [Config.memWords] at h
    exact ⟨⟨rfl, Nat.le_of_lt_succ h, Memory.word_setWord_same _ w hm h⟩, Memory.setWord_wf w hm h⟩
  · exact ⟨⟨rfl, Nat.zero_le 49, Memory.word_setWord_same 0 w hm (by decide)⟩, Memory.setWord_wf w hm (by decide)⟩

/-! ## A step, by the run state and the fetch -/

theorem step_idle {s : State} (h : s.run = .idle) : step s = .next s := by
  unfold step; rw [h]

theorem step_halted {s : State} (h : s.run = .halted) : step s = .next s := by
  unfold step; rw [h]

theorem step_faulted {s : State} {e : Fault} (h : s.run = .faulted e) : step s = .fault e := by
  unfold step; rw [h]

theorem step_fetch_fails {s : State} (h : s.run = .running) (hp : 49 < s.pc.toNat) :
    step s = .next (s.raise .invalidAddressError) := by
  unfold step; rw [h, fetch_of_lt hp]

theorem step_exec {s : State} (h : s.run = .running) (hp : s.pc.toNat ≤ 49) :
    step s = exec (decode (s.mem.word s.pc.toNat)) s.fetched := by
  unfold step; rw [h, fetch_of_le hp]; rfl

/-- Everything a step that answers a next state can be. -/
theorem step_cases {s t : State} (h : step s = .next t) :
    ((s.run = .idle ∨ s.run = .halted) ∧ t = s) ∨
      (s.run = .running ∧ 49 < s.pc.toNat ∧ t = s.raise .invalidAddressError) ∨
      (s.run = .running ∧ s.pc.toNat ≤ 49 ∧ exec (decode (s.mem.word s.pc.toNat)) s.fetched = .next t) := by
  cases hr : s.run with
  | idle => rw [step_idle hr] at h; cases h; exact .inl ⟨.inl rfl, rfl⟩
  | halted => rw [step_halted hr] at h; cases h; exact .inl ⟨.inr rfl, rfl⟩
  | faulted e => rw [step_faulted hr] at h; cases h
  | running =>
    by_cases hp : s.pc.toNat ≤ 49
    · exact .inr (.inr ⟨rfl, hp, by rw [← step_exec hr hp]; exact h⟩)
    · have hp : 49 < s.pc.toNat := by omega
      rw [step_fetch_fails hr hp] at h
      cases h
      exact .inr (.inl ⟨rfl, hp, rfl⟩)

/-! ## An instruction -/

/-- LD, by its effective address (44_load.md R106). -/
theorem execLd_of_valid {dr : RegIdx} {off : BitVec 9} {s : State} (h : validAddress (effectiveAddress s.pc off)) :
    execLd dr off s = .next (s.writeResult dr (s.mem.word (effectiveAddress s.pc off).toNat)) := by
  unfold execLd; rw [memRead_of_valid _ h]

theorem execLd_of_invalid {dr : RegIdx} {off : BitVec 9} {s : State} (h : ¬ validAddress (effectiveAddress s.pc off)) :
    execLd dr off s = .next (s.raise .invalidAddressError) := by
  unfold execLd; rw [memRead_of_invalid _ h]

/-- A result written is the whole of what a result-producing instruction changes (43_operate.md R104). -/
theorem writeResult_writesOnly (s : State) (dr : RegIdx) (v : Word) : s.WritesOnly (s.writeResult dr v) dr v := by
  refine ⟨?_, fun k h => ?_, flagsOf_tells v, rfl, rfl, rfl, rfl, rfl⟩
  · rw [State.reg_writeResult, if_pos rfl]
  · rw [State.reg_writeResult, if_neg h]

/-- The position-by-position test of BR is the conjunction of mask and flags (42_branch.md R96, R97). -/
theorem branchTaken_iff (nzp cc : CC) : branchTaken nzp cc = true ↔ nzp &&& cc ≠ 0b000#3 := by
  revert nzp cc; decide

/-- Everything the instruction read from a word can do, by the word's opcode (41_fetch_decode_execute.md R91): branch,
write a result, load, raise, emit, halt. -/
theorem exec_decode_cases {w : Word} {s t : State} (h : exec (decode w) s = .next t) :
    (opcodeOf w = 0b0000#4 ∧
      t = { s with pc := if branchTaken (nzpOf w) s.cc then branchTarget s.pc (pcOffset9Of w) else s.pc }) ∨
    ((opcodeOf w = 0b0001#4 ∨ opcodeOf w = 0b0101#4 ∨ opcodeOf w = 0b1001#4) ∧ ∃ v, t = s.writeResult (drOf w) v) ∨
    (opcodeOf w = 0b0010#4 ∧ validAddress (effectiveAddress s.pc (pcOffset9Of w)) ∧
      t = s.writeResult (drOf w) (s.mem.word (effectiveAddress s.pc (pcOffset9Of w)).toNat)) ∨
    (opcodeOf w = 0b0010#4 ∧ ¬ validAddress (effectiveAddress s.pc (pcOffset9Of w)) ∧
      t = s.raise .invalidAddressError) ∨
    (opcodeOf w = 0b1111#4 ∧ vectorOf w = 0x21#8 ∧ t = s.emit (lowByte (s.reg 0))) ∨
    (opcodeOf w = 0b1111#4 ∧ vectorOf w ≠ 0x21#8 ∧ t = s.halt) ∨
    (opcodeOf w ∉ [0b0000#4, 0b0001#4, 0b0010#4, 0b0101#4, 0b1001#4, 0b1111#4] ∧
      t = s.raise .unsupportedOpcodeError) := by
  by_cases ho : opcodeOf w ∈ [0b0000#4, 0b0001#4, 0b0010#4, 0b0101#4, 0b1001#4, 0b1111#4]
  · simp only [List.mem_cons, List.not_mem_nil, or_false] at ho
    rcases ho with ho | ho | ho | ho | ho | ho
    · refine .inl ⟨ho, ?_⟩
      rw [decode_br ho] at h
      change execBr _ _ s = _ at h
      unfold execBr at h
      split at h <;> next hb => cases h; simp [hb]
    · refine .inr (.inl ⟨.inl ho, ?_⟩)
      rw [decode_add ho] at h
      split at h <;> cases h <;> exact ⟨_, rfl⟩
    · rw [decode_ld ho] at h
      change execLd _ _ s = _ at h
      by_cases hv : validAddress (effectiveAddress s.pc (pcOffset9Of w))
      · rw [execLd_of_valid hv] at h; cases h; exact .inr (.inr (.inl ⟨ho, hv, rfl⟩))
      · rw [execLd_of_invalid hv] at h; cases h; exact .inr (.inr (.inr (.inl ⟨ho, hv, rfl⟩)))
    · refine .inr (.inl ⟨.inr (.inl ho), ?_⟩)
      rw [decode_and ho] at h
      split at h <;> cases h <;> exact ⟨_, rfl⟩
    · refine .inr (.inl ⟨.inr (.inr ho), ?_⟩)
      rw [decode_not ho] at h
      cases h; exact ⟨_, rfl⟩
    · rw [decode_trap ho] at h
      change execTrap _ s = _ at h
      unfold execTrap at h
      split at h
      · next hv => cases h; exact .inr (.inr (.inr (.inr (.inl ⟨ho, hv, rfl⟩))))
      · next hv => cases h; exact .inr (.inr (.inr (.inr (.inr (.inl ⟨ho, hv, rfl⟩)))))
  · refine .inr (.inr (.inr (.inr (.inr (.inr ⟨ho, ?_⟩)))))
    rcases decode_illegal ho with e | e | e | e | e | e | e | e | e | e <;> rw [e] at h <;> cases h <;> rfl

end Sys2Proof.Machine
end

