-- ==== Sys2Proof/Laws/Run.lean ====
section
/-! SUPPORT. A run of the machine, one step at a time. -/

namespace Sys2Proof.Machine

/-- A run of any core goes on from the next state. -/
theorem coreRun_of_next {M : Host.Core} {s t : M.State} (h : M.step s = .next t) (n : Nat) :
    M.run (n + 1) s = M.run n t := by
  rw [Host.Core.run, h]

/-- A run of any core ends at a fault. -/
theorem coreRun_of_fault {M : Host.Core} {s : M.State} {e : M.Fault} (h : M.step s = .fault e) (n : Nat) :
    M.run (n + 1) s = .fault e := by
  rw [Host.Core.run, h]

theorem run_zero (s : State) : Host.Core.run Sys2Proof.core 0 s = .next s := rfl

theorem run_succ_of_next {s t : State} (h : step s = .next t) (n : Nat) :
    Host.Core.run Sys2Proof.core (n + 1) s = Host.Core.run Sys2Proof.core n t :=
  coreRun_of_next (M := Sys2Proof.core) h n

theorem run_succ_of_fault {s : State} {e : Fault} (h : step s = .fault e) (n : Nat) :
    Host.Core.run Sys2Proof.core (n + 1) s = .fault e :=
  coreRun_of_fault (M := Sys2Proof.core) h n

end Sys2Proof.Machine
end

