-- ==== Sys2Proof/Tests/Slice0.lean ====
section
/-! SUPPORT. Tests of the model, their expected results taken from spec/95_test_vectors.md (V-..., P..., S...) or worked
out from the rules named; and, for each statement with hypotheses, a witness that they can be met. -/

namespace Sys2Proof.Tests

open Sys2Proof.Machine

/-! ## Builders -/

/-- The next state of an outcome, if it is one. -/
def nextOf : Result → Option State
  | .next s => some s
  | .fault _ => none
  | .refused _ => none

/-- The reset state about to run the word `w` at address 0 (the vectors' start). -/
def at0 (w : Word) : State := State.reset.aboutToFetch w

/-- The same with other flags and other values in registers 1 and 2. -/
def at0With (cc : CC) (x1 x2 : Word) (w : Word) : State :=
  (({ State.reset with cc := cc }.setReg 1 x1).setReg 2 x2).aboutToFetch w

/-- The same about to run `w` at address `a`. -/
def atAddr (a : Word) (cc : CC) (w : Word) : State := { State.reset with pc := a, cc := cc }.aboutToFetch w

/-- `n` steps. -/
def steps : Nat → State → Option State
  | 0, s => some s
  | n + 1, s => (nextOf (step s)).bind (steps n)

theorem next_of_nextOf {r : Result} {t : State} (h : nextOf r = some t) : r = .next t := by
  cases r with
  | next s => cases h; rfl
  | fault e => cases h
  | refused e => cases h

/-- If the next state passes the check `p`, there is a next state that does. -/
theorem exists_next {r : Result} (p : State → Bool) (h : (nextOf r).any p = true) : ∃ t, r = .next t ∧ p t = true := by
  cases hr : nextOf r with
  | none => rw [hr] at h; cases h
  | some t => rw [hr] at h; exact ⟨t, next_of_nextOf hr, h⟩

theorem reachable_steps {n : Nat} : ∀ {s t : State}, Reachable s → steps n s = some t → Reachable t := by
  induction n with
  | zero => intro s t hs h; cases h; exact hs
  | succ n ih =>
    intro s t hs h
    unfold steps at h
    cases hn : nextOf (step s) with
    | none => rw [hn] at h; cases h
    | some u => rw [hn] at h; exact ih (.step hs (next_of_nextOf hn)) h

/-! ## Well-formedness: each opcode that is no instruction is refused -/

theorem test_wf_refuses_0011 : ¬ Instr.WellFormed .illegal0011 := by decide
theorem test_wf_refuses_0100 : ¬ Instr.WellFormed .illegal0100 := by decide
theorem test_wf_refuses_0110 : ¬ Instr.WellFormed .illegal0110 := by decide
theorem test_wf_refuses_0111 : ¬ Instr.WellFormed .illegal0111 := by decide
theorem test_wf_refuses_1000 : ¬ Instr.WellFormed .illegal1000 := by decide
theorem test_wf_refuses_1010 : ¬ Instr.WellFormed .illegal1010 := by decide
theorem test_wf_refuses_1011 : ¬ Instr.WellFormed .illegal1011 := by decide
theorem test_wf_refuses_1100 : ¬ Instr.WellFormed .illegal1100 := by decide
theorem test_wf_refuses_1101 : ¬ Instr.WellFormed .illegal1101 := by decide
theorem test_wf_refuses_1110 : ¬ Instr.WellFormed .illegal1110 := by decide
theorem test_wf_takes_the_six :
    Instr.WellFormed (.br 7 511) ∧ Instr.WellFormed (.addReg 7 7 7) ∧ Instr.WellFormed (.addImm 7 7 31) ∧
      Instr.WellFormed (.ld 7 511) ∧ Instr.WellFormed (.andReg 7 7 7) ∧ Instr.WellFormed (.andImm 7 7 31) ∧
      Instr.WellFormed (.not 7 7) ∧ Instr.WellFormed (.trap 255) := by decide

/-! ## Decoding: words written out bit by bit from 30_encoding.md R54 to R59 -/

/-- V-BR-4: opcode 0000, nzp 101, offset 5. -/
theorem test_decode_br : decode 0b0000101000000101#16 = .br 0b101#3 5 := by decide
/-- Opcode 0001, dr 011, sr1 001, mode 0, filler 10, sr2 110. -/
theorem test_decode_addReg : decode 0b0001011001010110#16 = .addReg 3 1 6 := by decide
/-- Opcode 0001, dr 011, sr1 001, mode 1, imm5 10110. -/
theorem test_decode_addImm : decode 0b0001011001110110#16 = .addImm 3 1 0b10110#5 := by decide
/-- Opcode 0010, dr 110, offset 1 0000 0011. -/
theorem test_decode_ld : decode 0b0010110100000011#16 = .ld 6 0b100000011#9 := by decide
/-- Opcode 0101, dr 100, sr1 010, mode 0, filler 01, sr2 001. -/
theorem test_decode_andReg : decode 0b0101100010001001#16 = .andReg 4 2 1 := by decide
/-- Opcode 0101, dr 100, sr1 010, mode 1, imm5 01001. -/
theorem test_decode_andImm : decode 0b0101100010101001#16 = .andImm 4 2 0b01001#5 := by decide
/-- Opcode 1001, dr 101, sr 011, filler 000000. -/
theorem test_decode_not : decode 0b1001101011000000#16 = .not 5 3 := by decide
/-- Opcode 1111, filler 1010, vector 0010 0101. -/
theorem test_decode_trap : decode 0b1111101000100101#16 = .trap 0x25 := by decide
/-- The words of V-ILL-1 to V-ILL-10. -/
theorem test_decode_illegal :
    [0x3000#16, 0x4000#16, 0x6000#16, 0x7000#16, 0x8000#16, 0xA000#16, 0xB000#16, 0xC1C0#16, 0xD000#16, 0xEFFF#16].map
      decode = [.illegal0011, .illegal0100, .illegal0110, .illegal0111, .illegal1000, .illegal1010, .illegal1011,
        .illegal1100, .illegal1101, .illegal1110] := by decide

/-- V-FLD-1, in the document's notation `bits[offset:width)`. -/
theorem test_fields_in_the_documents_notation :
    (substring 0x1265#16 0 4, substring 0x1265#16 4 3, substring 0x1265#16 7 3, substring 0x1265#16 10 1,
      substring 0x1265#16 11 5) = (0b0001#4, 0b001#3, 0b001#3, 0b1#1, 0b00101#5) := by decide

/-- The encoder against the table's example words (opcode_table.json "example"). -/
theorem test_encode_examples :
    [Instr.br 0b001 0b111111101, .addReg 0 0 1, .addImm 1 1 5, .ld 1 1, .andReg 0 1 3, .andImm 2 2 0, .not 4 5,
      .trap 0x25].map encode =
      [0x03FD#16, 0x1001#16, 0x1265#16, 0x2201#16, 0x5043#16, 0x54A0#16, 0x997F#16, 0xF025#16] := by decide

/-- The table numbers its bits from the least significant one; more than one word is no instruction. -/
theorem test_decodeTableWord :
    decodeTableWord 16 0x1265 = some (.addImm 1 1 5) ∧ decodeTableWord 32 0x1265 = none := by decide

/-! ## Datapath -/

/-- V-SX-1 to V-SX-8. -/
theorem test_sign_extension :
    [0b00101#5, 0b11111#5, 0b10000#5, 0b01111#5].map immOperand = [0x0005#16, 0xFFFF#16, 0xFFF0#16, 0x000F#16] ∧
    [0b111111101#9, 0b100000000#9, 0b011111111#9, 0b000000000#9].map (branchTarget 0) =
      [0xFFFD#16, 0xFF00#16, 0x00FF#16, 0x0000#16] := by decide

/-- V-NUM-4 to V-NUM-6: numbers written at width 16. -/
theorem test_written_numbers : writeSigned (-1) = 0xFFFF#16 ∧ writeSigned 65541 = 0x0005#16 ∧
    writeSigned (-6) = 0xFFFA#16 ∧ (writeSigned (-6)).toInt = -6 := by decide

/-- V-CC-1 to V-CC-6. -/
theorem test_flags :
    [0x0000#16, 0x0001#16, 0x7FFF#16, 0x8000#16, 0xFFFF#16, 0xFFFA#16].map flagsOf =
      [0b010#3, 0b001#3, 0b001#3, 0b100#3, 0b100#3, 0b100#3] := by decide

/-- V-BR-T: rows are the masks 000 to 111, columns cc = 000, 100, 010, 001, 011, 101, 110, 111. -/
theorem test_branch_table :
    [0b000#3, 0b001#3, 0b010#3, 0b011#3, 0b100#3, 0b101#3, 0b110#3, 0b111#3].map (fun nzp =>
      [0b000#3, 0b100#3, 0b010#3, 0b001#3, 0b011#3, 0b101#3, 0b110#3, 0b111#3].map (branchTaken nzp)) =
    [[false, false, false, false, false, false, false, false],
     [false, false, false, true, true, true, false, true],
     [false, false, true, false, true, false, true, true],
     [false, false, true, true, true, true, true, true],
     [false, true, false, false, false, true, true, true],
     [false, true, false, true, true, true, true, true],
     [false, true, true, false, true, true, true, true],
     [false, true, true, true, true, true, true, true]] := by decide

/-! ## One step -/

/-- V-BR-4: taken, offset 5. -/
theorem test_br_taken :
    (nextOf (step (at0With 0b100 1 2 0x0A05))).map (fun t => (t.pc, t.cc, t.run)) = some (6, 0b100, .running) := by decide
/-- V-BR-1: cc = 000 is taken under no mask. -/
theorem test_br_not_taken_at_reset : (nextOf (step (at0 0x0E01))).map (fun t => (t.pc, t.ir)) = some (1, 0x0E01) := by
  decide

/-- V-ADD-4: 0x7FFF + 1 wraps and sets N. -/
theorem test_addReg_wraps :
    (nextOf (step (at0With 0 0x7FFF 1 0x1042))).map (fun t => (t.reg 0, t.cc)) = some (0x8000, 0b100) := by decide
/-- V-ADD-12: the filler bits 11 change nothing. -/
theorem test_addReg_ignores_filler :
    (nextOf (step (at0 0x1059))).map (fun t => (t.reg 0, t.cc)) = some (2, 0b001) := by decide

/-- V-ADD-3: register 7, whose number the immediate's low bits spell, is kept. -/
theorem test_addImm_keeps_other_registers :
    (nextOf (step (at0 0x127F))).map (fun t => (t.reg 1, t.reg 7, t.cc)) = some (0, 7, 0b010) := by decide
/-- V-ADD-9: 3 - 16. -/
theorem test_addImm_negative :
    (nextOf (step (at0 0x14F0))).map (fun t => (t.reg 2, t.reg 3, t.cc)) = some (0xFFF3, 3, 0b100) := by decide

/-- V-AND-8: the destination's old value is the operand. -/
theorem test_andReg_reads_before_writing :
    (nextOf (step (at0With 0 0x1234 2 0x5058))).map (fun t => (t.reg 0, t.cc)) = some (0, 0b010) := by decide
/-- V-AND-6. -/
theorem test_andReg_negative :
    (nextOf (step (at0With 0 0x8001 0x8000 0x5642))).map (fun t => (t.reg 3, t.cc)) = some (0x8000, 0b100) := by decide

/-- V-AND-5: the immediate is sign-extended. -/
theorem test_andImm_extends :
    (nextOf (step (at0With 0 0xABCD 2 0x5070))).map (fun t => (t.reg 0, t.cc)) = some (0xABC0, 0b100) := by decide
/-- V-AND-4. -/
theorem test_andImm_positive :
    (nextOf (step (at0With 0 0xABCD 2 0x506F))).map (fun t => (t.reg 0, t.cc)) = some (0x000D, 0b001) := by decide

/-- V-NOT-4. -/
theorem test_not_keeps_the_source :
    (nextOf (step (at0With 0 0x8000 2 0x947F))).map (fun t => (t.reg 2, t.reg 1, t.cc)) =
      some (0x7FFF, 0x8000, 0b001) := by decide
/-- V-NOT-6: filler zeros, same result as V-NOT-1. -/
theorem test_not_ignores_filler :
    (nextOf (step (at0 0x9940))).map (fun t => (t.reg 4, t.reg 5, t.cc)) = some (0xFFFA, 5, 0b100) := by decide

/-- V-LD-2: offset -1 loads the LD itself. -/
theorem test_ld_itself :
    (nextOf (step (at0 0x21FF))).map (fun t => (t.reg 0, t.cc, t.run)) = some (0x21FF, 0b001, .running) := by decide
/-- V-LD-4: address 50 raises with register and flags kept. -/
theorem test_ld_outside :
    (nextOf (step (at0With 0b001 1 2 0x2031))).map (fun t => (t.reg 0, t.cc, t.pc, t.ir, t.run)) =
      some (0, 0b001, 1, 0x2031, .faulted .invalidAddressError) := by decide

/-- V-TRAP-7 with register 0 set to 0x0158: one value, its low byte. -/
theorem test_trap_out :
    (nextOf (step ((at0 0xF121).setReg 0 0x0158))).map (fun t => (t.out, t.run, t.cc)) =
      some ([0x58], .running, 0b000) := by decide
/-- V-TRAP-3: all 8 bits of the vector are compared. -/
theorem test_trap_halt :
    (nextOf (step (at0 0xF0A1))).map (fun t => (t.out, t.run, t.pc)) = some ([], .halted, 1) := by decide

/-- V-ILL-1 to V-ILL-10. -/
theorem test_illegal_opcodes :
    [0x3000#16, 0x4000#16, 0x6000#16, 0x7000#16, 0x8000#16, 0xA000#16, 0xB000#16, 0xC1C0#16, 0xD000#16, 0xEFFF#16].map
      (fun w => (nextOf (step (at0 w))).map fun t => (t.ir == w, t.pc, t.cc, t.run)) =
    List.replicate 10 (some (true, 1, 0b000, .faulted .unsupportedOpcodeError)) := by decide

/-! ## The host's ports -/

/-- V-LOAD-1, V-LOAD-2. -/
theorem test_load_refusals :
    State.reset.load [] = .error .invalidProgramError ∧
      State.reset.load (List.replicate 50 0xF025) = .error .invalidProgramError := ⟨rfl, rfl⟩
/-- V-LOAD-4, then P2's three words. -/
theorem test_load_places_words :
    (State.reset.load [0xF025]).toOption.map (fun t => ((List.range 50).map t.mem.word, t.run)) =
      some (0xF025 :: List.replicate 49 0, .idle) ∧
    (State.reset.load [0x2201, 0xF025, 0x0005]).toOption.map (fun t => (List.range 4).map t.mem.word) =
      some [0x2201, 0xF025, 0x0005, 0] := by decide
/-- V-RUN-2, and the status codes of 50_interfaces.md R122. -/
theorem test_start_and_status :
    State.reset.start.status = 1 ∧ State.reset.status = 0 ∧
    (({ State.reset with run := .halted } : State).start.status) = 2 ∧
    (({ State.reset with run := .faulted .invalidAddressError } : State).start.status) = 3 ∧
    (({ State.reset with run := .faulted .unsupportedOpcodeError } : State).start.status) = 4 := by decide
/-- 70_reset_and_hazards.md R147: a reset event gives the reset state from any state. -/
theorem test_reset_event : (at0With 0b100 7 8 0xF025).resetEvent = State.reset := by decide

/-! ## Witnesses: the hypotheses of each statement can be met, at the boundaries of each clause -/

theorem witness_UnusedBitsAreIgnored :
    (0x997F#16 : Word) &&& usedBits (decode 0x997F) = 0x9940#16 &&& usedBits (decode 0x997F) ∧
      (0x997F#16 : Word) ≠ 0x9940#16 := by decide

theorem witness_OpcodeSelectsRow :
    (0x0FFF#16).extractLsb' 12 4 = 0b0000#4 ∧
    ((0x1FDF#16).extractLsb' 12 4 = 0b0001#4 ∧ (0x1FDF#16).getLsbD 5 = false) ∧
    ((0x1FFF#16).extractLsb' 12 4 = 0b0001#4 ∧ (0x1FFF#16).getLsbD 5 = true) ∧
    (0x2FFF#16).extractLsb' 12 4 = 0b0010#4 ∧
    ((0x5FDF#16).extractLsb' 12 4 = 0b0101#4 ∧ (0x5FDF#16).getLsbD 5 = false) ∧
    ((0x5FFF#16).extractLsb' 12 4 = 0b0101#4 ∧ (0x5FFF#16).getLsbD 5 = true) ∧
    (0x9FFF#16).extractLsb' 12 4 = 0b1001#4 ∧ (0xFFFF#16).extractLsb' 12 4 = 0b1111#4 ∧
    (0x3FFF#16).extractLsb' 12 4 = 0b0011#4 ∧ (0x4FFF#16).extractLsb' 12 4 = 0b0100#4 ∧
    (0x6FFF#16).extractLsb' 12 4 = 0b0110#4 ∧ (0x7FFF#16).extractLsb' 12 4 = 0b0111#4 ∧
    (0x8FFF#16).extractLsb' 12 4 = 0b1000#4 ∧ (0xAFFF#16).extractLsb' 12 4 = 0b1010#4 ∧
    (0xBFFF#16).extractLsb' 12 4 = 0b1011#4 ∧ (0xCFFF#16).extractLsb' 12 4 = 0b1100#4 ∧
    (0xDFFF#16).extractLsb' 12 4 = 0b1101#4 ∧ (0xEFFF#16).extractLsb' 12 4 = 0b1110#4 := by decide

/-- Effective addresses 0 and 49, from the incremented `pc` of an LD at address 0. -/
theorem witness_LdLoadsTheWord :
    let s := { State.reset with pc := 1 }
    (0 ≤ s.pc.toInt + (0x1FF#9).toInt ∧ s.pc.toInt + (0x1FF#9).toInt ≤ 49) ∧
    (0 ≤ s.pc.toInt + (48#9).toInt ∧ s.pc.toInt + (48#9).toInt ≤ 49) := by decide

/-- Effective addresses -1 and 50. -/
theorem witness_LdOutsideMemoryRaises :
    let s := { State.reset with pc := 1 }
    (s.pc.toInt + (0x1FE#9).toInt < 0 ∨ 49 < s.pc.toInt + (0x1FE#9).toInt) ∧
    (s.pc.toInt + (49#9).toInt < 0 ∨ 49 < s.pc.toInt + (49#9).toInt) := by decide

theorem witness_UnlistedOpcodesRaise :
    (Instr.illegal1110 ∈ [Instr.illegal0011, .illegal0100, .illegal0110, .illegal0111, .illegal1000, .illegal1010,
      .illegal1011, .illegal1100, .illegal1101, .illegal1110]) := by decide

/-- At the first and the last address of memory. -/
theorem witness_StepRunsTheDecodedInstruction :
    (at0 0x1265).AboutToRun 0x1265 ∧ (atAddr 49 0 0x1265).AboutToRun 0x1265 :=
  ⟨⟨rfl, by decide, by decide⟩, ⟨rfl, by decide, by decide⟩⟩

/-- Both modes. -/
theorem witness_StepOverAdd :
    ((at0 0x1001).AboutToRun 0x1001 ∧ (0x1001#16).extractLsb' 12 4 = 0b0001#4) ∧
    ((at0 0x1265).AboutToRun 0x1265 ∧ (0x1265#16).extractLsb' 12 4 = 0b0001#4) :=
  ⟨⟨⟨rfl, by decide, by decide⟩, by decide⟩, ⟨⟨rfl, by decide, by decide⟩, by decide⟩⟩

theorem witness_StepOverAnd :
    ((at0 0x5043).AboutToRun 0x5043 ∧ (0x5043#16).extractLsb' 12 4 = 0b0101#4) ∧
    ((at0 0x54A0).AboutToRun 0x54A0 ∧ (0x54A0#16).extractLsb' 12 4 = 0b0101#4) :=
  ⟨⟨⟨rfl, by decide, by decide⟩, by decide⟩, ⟨⟨rfl, by decide, by decide⟩, by decide⟩⟩

theorem witness_StepOverNot : (at0 0x997F).AboutToRun 0x997F ∧ (0x997F#16).extractLsb' 12 4 = 0b1001#4 :=
  ⟨⟨rfl, by decide, by decide⟩, by decide⟩

/-- Effective addresses 49 (loads) and 50 (raises), the values where the two clauses meet. -/
theorem witness_StepOverLd :
    ((at0 0x2030).AboutToRun 0x2030 ∧ (0x2030#16).extractLsb' 12 4 = 0b0010#4 ∧
      ((at0 0x2030).pc + 1).toInt + ((0x2030#16).extractLsb' 0 9).toInt = 49) ∧
    ((at0 0x2031).AboutToRun 0x2031 ∧ (0x2031#16).extractLsb' 12 4 = 0b0010#4 ∧
      ((at0 0x2031).pc + 1).toInt + ((0x2031#16).extractLsb' 0 9).toInt = 50) :=
  ⟨⟨⟨rfl, by decide, by decide⟩, by decide, by decide⟩, ⟨⟨rfl, by decide, by decide⟩, by decide, by decide⟩⟩

/-- Taken and not taken. -/
theorem witness_StepOverBr :
    ((at0With 0b100 1 2 0x0A05).AboutToRun 0x0A05 ∧ (0x0A05#16).extractLsb' 12 4 = 0b0000#4) ∧
    ((at0With 0b010 1 2 0x0A05).AboutToRun 0x0A05) :=
  ⟨⟨⟨rfl, by decide, by decide⟩, by decide⟩, ⟨rfl, by decide, by decide⟩⟩

/-- OUT, and the vectors next to it. -/
theorem witness_StepOverTrap :
    ((at0 0xF021).AboutToRun 0xF021 ∧ (0xF021#16).extractLsb' 12 4 = 0b1111#4) ∧
    ((at0 0xF020).AboutToRun 0xF020 ∧ (0xF020#16).extractLsb' 12 4 = 0b1111#4) ∧
    ((at0 0xF022).AboutToRun 0xF022 ∧ (0xF022#16).extractLsb' 12 4 = 0b1111#4) :=
  ⟨⟨⟨rfl, by decide, by decide⟩, by decide⟩, ⟨⟨rfl, by decide, by decide⟩, by decide⟩,
    ⟨⟨rfl, by decide, by decide⟩, by decide⟩⟩

theorem witness_StepOverUnlistedOpcode :
    (at0 0xEFFF).AboutToRun 0xEFFF ∧
      (0xEFFF#16).extractLsb' 12 4 ∈ [0b0011#4, 0b0100#4, 0b0110#4, 0b0111#4, 0b1000#4, 0b1010#4, 0b1011#4, 0b1100#4,
        0b1101#4, 0b1110#4] :=
  ⟨⟨rfl, by decide, by decide⟩, by decide⟩

/-- The first address without memory, and the last. -/
theorem witness_FetchOutsideMemoryRaises :
    (({ State.reset with pc := 50, run := .running } : State).run = .running ∧ 49 < (50#16 : Word).toNat) ∧
    (({ State.reset with pc := 0xFFFF, run := .running } : State).run = .running ∧ 49 < (0xFFFF#16 : Word).toNat) := by
  decide

theorem witness_StoppedMachinesStayStopped :
    State.reset.run = .idle ∧ ({ State.reset with run := .halted } : State).Succeeded ∧
      ({ State.reset with run := .faulted .invalidAddressError } : State).run = .faulted .invalidAddressError :=
  ⟨rfl, rfl, rfl⟩

/-- One step for each way to end: halted, both errors (the address error by fetch and by LD), and none. -/
theorem witness_RunningStopsExactlyWhen :
    (∃ t, step (at0 0xF025) = .next t ∧ decide (t.run = .halted) = true) ∧
    (∃ t, step (at0 0xEFFF) = .next t ∧ decide (t.run = .faulted .unsupportedOpcodeError) = true) ∧
    (∃ t, step (at0 0x2031) = .next t ∧ decide (t.run = .faulted .invalidAddressError) = true) ∧
    (∃ t, step { State.reset with pc := 50, run := .running } = .next t ∧
      decide (t.run = .faulted .invalidAddressError) = true) ∧
    (∃ t, step (at0 0x2030) = .next t ∧ decide (t.run = .running) = true) :=
  ⟨exists_next _ (by decide), exists_next _ (by decide), exists_next _ (by decide), exists_next _ (by decide),
    exists_next _ (by decide)⟩

theorem witness_NoStepWritesMemory : ∃ t, step (at0 0x1265) = .next t ∧ (t.mem != []) = true :=
  exists_next _ (by decide)

/-- An ADD, an LD that loads, an LD that raises, a BR. -/
theorem witness_FlagsAreTheLastResults :
    ((at0 0x1265).AboutToRun 0x1265 ∧ ∃ t, step (at0 0x1265) = .next t ∧ (t.cc == 0b001) = true) ∧
    ((at0 0x2030).AboutToRun 0x2030 ∧ ∃ t, step (at0 0x2030) = .next t ∧ decide (t.run = .running) = true) ∧
    ((at0 0x2031).AboutToRun 0x2031 ∧ ∃ t, step (at0 0x2031) = .next t ∧ decide (t.run ≠ .running) = true) ∧
    ((at0 0x0E01).AboutToRun 0x0E01 ∧ ∃ t, step (at0 0x0E01) = .next t ∧ (t.cc == 0b000) = true) :=
  ⟨⟨⟨rfl, by decide, by decide⟩, exists_next _ (by decide)⟩, ⟨⟨rfl, by decide, by decide⟩, exists_next _ (by decide)⟩,
    ⟨⟨rfl, by decide, by decide⟩, exists_next _ (by decide)⟩, ⟨⟨rfl, by decide, by decide⟩, exists_next _ (by decide)⟩⟩

theorem witness_OnlyDrIsWritten :
    ∃ t, step (at0 0x1265) = .next t ∧ (t.reg 1 != (at0 0x1265).reg 1) = true := exists_next _ (by decide)

/-- A failed fetch at 50, an ADD at 49, a taken BR, a BR not taken. -/
theorem witness_PcAdvancesAndIrHoldsTheWord :
    (∃ t, step { State.reset with pc := 50, run := .running } = .next t ∧ (t.pc == 50) = true) ∧
    (∃ t, step (atAddr 49 0 0x1265) = .next t ∧ (t.pc == 50) = true) ∧
    (∃ t, step (atAddr 49 0b001 0x03FD) = .next t ∧ (t.pc == 47) = true) ∧
    (∃ t, step (atAddr 49 0b010 0x03FD) = .next t ∧ (t.pc == 50) = true) :=
  ⟨exists_next _ (by decide), exists_next _ (by decide), exists_next _ (by decide), exists_next _ (by decide)⟩

theorem witness_OutputGrowsByOutAlone :
    (∃ t, step (at0 0xF021) = .next t ∧ (t.out == [0]) = true) ∧
    (∃ t, step (at0 0xF020) = .next t ∧ (t.out == []) = true) ∧
    (∃ t, step State.reset = .next t ∧ (t.out == []) = true) :=
  ⟨exists_next _ (by decide), exists_next _ (by decide), exists_next _ (by decide)⟩

/-- Two states that differ in register 5, whose number the immediate spells; two that differ in LD's destination, for an
LD that raises. -/
theorem witness_OnlyNamedRegistersAreRead :
    ((at0 0).SameButRegs ((at0 0).setReg 5 9) ∧
      (∀ k ∈ (Instr.addImm 1 1 5).reads, ((at0 0).setReg 5 9).reg k = (at0 0).reg k) ∧
      (∃ t, exec (.addImm 1 1 5) (at0 0) = .next t ∧ true = true) ∧
      (∃ t, exec (.addImm 1 1 5) ((at0 0).setReg 5 9) = .next t ∧ (t.reg 5 == 9) = true)) ∧
    ((at0 0).SameButRegs ((at0 0).setReg 5 9) ∧
      (∃ t, exec (.ld 5 60) (at0 0) = .next t ∧ (t.reg 5 == 5) = true) ∧
      (∃ t, exec (.ld 5 60) ((at0 0).setReg 5 9) = .next t ∧ (t.reg 5 == 9) = true)) :=
  ⟨⟨⟨rfl, rfl, rfl, rfl, rfl, rfl⟩, by decide, exists_next (fun _ => true) (by decide), exists_next _ (by decide)⟩,
    ⟨⟨rfl, rfl, rfl, rfl, rfl, rfl⟩, exists_next _ (by decide), exists_next _ (by decide)⟩⟩

theorem at0_halt_legal : (at0 0xF025).Legal where
  mem_wf := by decide
  cc_legal := .inl (by decide)
  stop_explained := trivial
  idle_fresh := fun h => absurd h (by decide)

theorem witness_StepKeepsLegal :
    (at0 0xF025).Legal ∧ ∃ t, step (at0 0xF025) = .next t ∧ decide (t.run = .halted) = true :=
  ⟨at0_halt_legal, exists_next _ (by decide)⟩

theorem reset_legal : State.reset.Legal := ⟨by decide, .inl (by decide), trivial, fun _ => rfl⟩

/-- A legal state whose `start` has an effect and whose load is accepted; a halted and a faulted machine, whose `start`
has none. -/
theorem witness_HostPortsKeepLegal :
    (State.reset.Legal ∧ State.reset.run = .idle ∧
      State.reset.load [0xF025] = .ok { State.reset with mem := [(0, 0x25), (1, 0xF0)] }) ∧
    ({ State.reset with run := .halted } : State).run ≠ .idle ∧
    ({ State.reset with run := .faulted .invalidAddressError } : State).run ≠ .idle :=
  ⟨⟨reset_legal, rfl, rfl⟩, by decide, by decide⟩

/-- The state after the load of two words: the program that ends with a branch out of memory, to address 50. -/
def twoWords : State := { State.reset with mem := [(0, 0x20), (1, 0x10), (2, 0x30), (3, 0x04)] }

theorem twoWords_reachable : Reachable twoWords :=
  .load [0x1020, 0x0430] .reset rfl

theorem witness_ReachableStatesAreLegal : Reachable twoWords.start ∧ twoWords.start.run = .running :=
  ⟨.start twoWords_reachable, by decide⟩

/-- `pc` = 50 after a branch there (three steps), and an LD of address 50 (one step). -/
theorem witness_AddressErrorsAreToldApart :
    (∃ s, Reachable s ∧ s.run = .faulted .invalidAddressError ∧ s.pc = 50#16) ∧
    (∃ s, Reachable s ∧ s.run = .faulted .invalidAddressError ∧ s.pc = 1#16) := by
  have hld : Reachable ({ State.reset with mem := [(0, 0x31), (1, 0x20)] } : State) := .load [0x2031] .reset rfl
  exact ⟨⟨_, reachable_steps (n := 3) (t := { twoWords with
        pc := 50, ir := 0x0430, cc := 0b010, run := .faulted .invalidAddressError })
      (.start twoWords_reachable) (by decide), rfl, rfl⟩,
    ⟨_, reachable_steps (n := 1) (t := { State.reset with
        mem := [(0, 0x31), (1, 0x20)], pc := 1, ir := 0x2031, run := .faulted .invalidAddressError })
      (.start hld) (by decide), rfl, rfl⟩⟩

/-- The last address a program can use: an LD at 48, which loads word 49. -/
theorem ldLast_errorsTold : (atAddr 48 0 0x2000).ErrorsTold where
  legal := ⟨by decide, .inl (by decide), trivial, fun h => absurd h (by decide)⟩
  last_word_zero := by decide
  no_ld_at_end := fun h => absurd h (by decide)

/-- The same at `pc` = 50, after the branch there: its step stops at the fetch. -/
theorem atEnd_errorsTold : ({ twoWords with pc := 50, ir := 0x0430, cc := 0b010, run := .running } : State).ErrorsTold where
  legal := ⟨by decide, .inr (.inr (.inl (by decide))), trivial, fun h => absurd h (by simp)⟩
  last_word_zero := by decide
  no_ld_at_end := fun _ => by decide

/-- A step that goes on; one that stops at the fetch; one that stops at an LD, from address 0. -/
theorem witness_StepKeepsErrorsTold :
    ((atAddr 48 0 0x2000).ErrorsTold ∧
      ∃ t, step (atAddr 48 0 0x2000) = .next t ∧ decide (t.run = .running ∧ t.pc = 49) = true) ∧
    (({ twoWords with pc := 50, ir := 0x0430, cc := 0b010, run := .running } : State).ErrorsTold ∧
      ∃ t, step { twoWords with pc := 50, ir := 0x0430, cc := 0b010, run := .running } = .next t ∧
        decide (t.run = .faulted .invalidAddressError ∧ t.pc = 50) = true) ∧
    ((at0 0x2031).ErrorsTold ∧
      ∃ t, step (at0 0x2031) = .next t ∧ decide (t.run = .faulted .invalidAddressError ∧ t.pc = 1) = true) :=
  ⟨⟨ldLast_errorsTold, exists_next _ (by decide)⟩, ⟨atEnd_errorsTold, exists_next _ (by decide)⟩,
    ⟨⟨⟨by decide, .inl (by decide), trivial, fun h => absurd h (by decide)⟩, by decide, fun h => absurd h (by decide)⟩,
      exists_next _ (by decide)⟩⟩

/-- The largest program that a load accepts, 49 words, at reset. -/
theorem witness_ResetAndHostPortsKeepErrorsTold :
    State.reset.ErrorsTold ∧ (State.reset.load (List.replicate 49 0x1021)).toBool = true :=
  ⟨⟨reset_legal, by decide, fun h => absurd h (by decide)⟩, by decide⟩

/-- LD: the sum 49 loads, 50 raises, and a sum that leaves 16 bits raises; fetch: 49 succeeds, 50 and 0xFFFF raise. -/
theorem witness_AddressViewsAgree :
    ((1#16 : Word) + (48#9).signExtend 16).toInt = 49 ∧ ((1#16 : Word) + (49#9).signExtend 16).toInt = 50 ∧
    ((0x7FFF#16 : Word) + (1#9).signExtend 16).toInt = -32768 ∧ effectiveAddress 0x7FFF 1 = 32768 ∧
    (49#16 : Word).toInt = 49 ∧ (50#16 : Word).toInt = 50 ∧ (0xFFFF#16 : Word).toInt = -1 := by decide

/-- Addresses 0 and 49 inside memory, -1 and 50 outside. -/
theorem witness_MemoryReadsBackWrites :
    Memory.wf [(0, 0x25), (1, 0xF0)] = true ∧ validAddress 0 ∧ validAddress 49 ∧ ¬ validAddress (-1) ∧
      ¬ validAddress 50 := by decide

theorem witness_LoadedProgramStartsAtItsFirstWord : (List.replicate 48 (0x1021#16 : Word)).length ≤ 48 := by decide

/-- Each refusal: outside `Idle`; no word, 50 words; a second program of 1 and of 49 words. -/
theorem witness_LoadRefusesTheRest :
    (at0 0xF025).run ≠ .idle ∧
    (State.reset.run = .idle ∧ 50 ≤ (List.replicate 50 (0#16 : Word)).length) ∧
    (twoWords.run = .idle ∧ ([0xF025#16] : List Word) ≠ [] ∧ ([0xF025#16] : List Word).length ≤ 49 ∧ twoWords.mem ≠ []) ∧
    ((List.replicate 49 (0#16 : Word)) ≠ [] ∧ (List.replicate 49 (0#16 : Word)).length ≤ 49) := by decide

theorem witness_InspectReadsTheState : State.reset.run ≠ .running := by decide

/-- The largest word, from `pc` = 0 and from a `pc` outside memory. -/
theorem witness_PlacedWordRunsNext : State.reset.mem.wf = true ∧ 65535 < 65536 ∧
    (State.reset.withFetchWord 16 65535).pc = 0 ∧
    (({ State.reset with pc := 50 } : State).withFetchWord 16 65535).pc = 0 := by decide

theorem witness_BranchToItselfNeverEnds :
    (atAddr 49 0b001 0x0FFF).AboutToRun 0x0FFF ∧ (0x0FFF#16).extractLsb' 12 4 = 0b0000#4 ∧
      (0x0FFF#16).extractLsb' 0 9 = 0b111111111#9 ∧ (0x0FFF#16).extractLsb' 9 3 &&& (atAddr 49 0b001 0x0FFF).cc ≠ 0b000#3 :=
  ⟨⟨rfl, by decide, by decide⟩, by decide, by decide, by decide⟩

/-- From address 0 (50 zero words, V-RUN-1) and from `pc` = 50 (none). -/
theorem witness_ZeroWordsRunToTheEndOfMemory :
    (State.reset.start.run = .running ∧ State.reset.start.pc.toNat + 50 = 50 ∧
      ∀ a, a < 50 → State.reset.start.mem.word a = 0x0000#16) ∧
    (({ State.reset with pc := 50, run := .running } : State).run = .running ∧ (50#16 : Word).toNat + 0 = 50) := by decide

end Sys2Proof.Tests
end

section
/-! PROOFS. The statement of the scope (00_scope.md R2): which words are instructions. -/

namespace Sys2Proof

/-- Within the six opcodes there is no illegal sub-encoding (30_encoding.md R65): both modes of ADD and AND are
instructions too. -/
theorem decode_wellFormed_of_listed {w : Word}
    (h : opcodeOf w ∈ [0b0000#4, 0b0001#4, 0b0010#4, 0b0101#4, 0b1001#4, 0b1111#4]) : (decode w).WellFormed := by
  simp only [List.mem_cons, List.not_mem_nil, or_false] at h
  obtain hbr | hadd | hld | hand | hnot | htrap := h
  · rw [decode_br hbr]; rfl
  · rw [decode_add hadd]; split <;> rfl
  · rw [decode_ld hld]; rfl
  · rw [decode_and hand]; split <;> rfl
  · rw [decode_not hnot]; rfl
  · rw [decode_trap htrap]; rfl

/-- An unlisted opcode is no instruction, whatever the 12 low bits (30_encoding.md R65). -/
theorem decode_not_wellFormed_of_unlisted {w : Word}
    (h : opcodeOf w ∉ [0b0000#4, 0b0001#4, 0b0010#4, 0b0101#4, 0b1001#4, 0b1111#4]) : ¬ (decode w).WellFormed := by
  obtain e | e | e | e | e | e | e | e | e | e := decode_illegal h <;> rw [e] <;> decide

/-- Settles O5, from the opcode map: the listed opcodes one by one, and the unlisted ones by the ten rows that are no
instruction. -/
theorem sixOpcodesAreInstructions : Obligations.SixOpcodesAreInstructions := fun _ =>
  ⟨fun hwf => by_contra fun h => decode_not_wellFormed_of_unlisted h hwf, decode_wellFormed_of_listed⟩

end Sys2Proof
end

section
/-! PROOFS. What the instruction of a fetched word, and a step, change of each state element and leave as it was: the
reading of `exec_decode_cases` and `step_cases` field by field (10_state.md, 41_fetch_decode_execute.md R91). -/

namespace Sys2Proof.Machine

variable {s t : State} {w : Word}

/-! ## An instruction, field by field -/

/-- The seven effects that the instruction of a word can have, under names of their own (41_fetch_decode_execute.md
R91). -/
inductive Effect (w : Word) (s : State) : State → Prop
  | branch (ho : opcodeOf w = 0b0000#4) :
    Effect w s { s with pc := if branchTaken (nzpOf w) s.cc then branchTarget s.pc (pcOffset9Of w) else s.pc }
  | result (ho : opcodeOf w ∈ [0b0001#4, 0b0101#4, 0b1001#4]) (v : Word) : Effect w s (s.writeResult (drOf w) v)
  | load (ho : opcodeOf w = 0b0010#4) (hv : validAddress (effectiveAddress s.pc (pcOffset9Of w))) :
    Effect w s (s.writeResult (drOf w) (s.mem.word (effectiveAddress s.pc (pcOffset9Of w)).toNat))
  | loadRaises (ho : opcodeOf w = 0b0010#4) (hv : ¬ validAddress (effectiveAddress s.pc (pcOffset9Of w))) :
    Effect w s (s.raise .invalidAddressError)
  | emit (ho : opcodeOf w = 0b1111#4) (hv : vectorOf w = 0x21#8) : Effect w s (s.emit (lowByte (s.reg 0)))
  | halt (ho : opcodeOf w = 0b1111#4) (hv : vectorOf w ≠ 0x21#8) : Effect w s s.halt
  | unlisted (ho : opcodeOf w ∉ [0b0000#4, 0b0001#4, 0b0010#4, 0b0101#4, 0b1001#4, 0b1111#4]) :
    Effect w s (s.raise .unsupportedOpcodeError)

theorem exec_decode_effect (h : exec (decode w) s = .next t) : Effect w s t := by
  obtain ⟨ho, rfl⟩ | ⟨ho, v, rfl⟩ | ⟨ho, hv, rfl⟩ | ⟨ho, hv, rfl⟩ | ⟨ho, hv, rfl⟩ | ⟨ho, hv, rfl⟩ | ⟨ho, rfl⟩ :=
    exec_decode_cases h
  · exact .branch ho
  · exact .result (by simpa using ho) v
  · exact .load ho hv
  · exact .loadRaises ho hv
  · exact .emit ho hv
  · exact .halt ho hv
  · exact .unlisted ho

/-- No instruction writes memory (20_memory.md R38). -/
theorem exec_decode_mem (h : exec (decode w) s = .next t) : t.mem = s.mem := by
  cases exec_decode_effect h <;> rfl

/-- No instruction writes `ir`: the fetch alone does (10_state.md R22). -/
theorem exec_decode_ir (h : exec (decode w) s = .next t) : t.ir = s.ir := by
  cases exec_decode_effect h <;> rfl

/-- The one instruction that writes `pc` is a BR whose mask meets a flag (42_branch.md R96). -/
theorem exec_decode_pc (h : exec (decode w) s = .next t) :
    t.pc = if opcodeOf w = 0b0000#4 ∧ nzpOf w &&& s.cc ≠ 0b000#3 then branchTarget s.pc (pcOffset9Of w) else s.pc := by
  cases exec_decode_effect h with
  | branch ho => simp only [ho, true_and, branchTaken_iff]
  | result ho _ | load ho _ | loadRaises ho _ | emit ho _ | halt ho _ | unlisted ho =>
    exact (if_neg fun hbr => by simp [hbr.1] at ho).symm

/-- A written result leaves the flags of the value then in the destination (43_operate.md R104, R105). -/
theorem writeResult_flagsTell (s : State) (dr : RegIdx) (v : Word) :
    FlagsTell (s.writeResult dr v).cc ((s.writeResult dr v).reg dr) := by
  rw [State.reg_writeResult, if_pos rfl]
  exact flagsOf_tells v

/-- A register that a result leaves changed is the destination. -/
theorem eq_of_reg_writeResult_ne {r k : RegIdx} {v : Word} (h : (s.writeResult r v).reg k ≠ s.reg k) : k = r :=
  by_contra fun hk => h (State.reg_setReg_ne s r k v hk)

/-- A changed register is the destination field of ADD, LD, AND or NOT (10_state.md R17). -/
theorem exec_decode_reg_changed (h : exec (decode w) s = .next t) {k : RegIdx} (hk : t.reg k ≠ s.reg k) :
    opcodeOf w ∈ [0b0001#4, 0b0010#4, 0b0101#4, 0b1001#4] ∧ k = drOf w := by
  cases exec_decode_effect h with
  | result ho v =>
    simp only [List.mem_cons, List.not_mem_nil, or_false] at ho
    exact ⟨by obtain ho | ho | ho := ho <;> simp [ho], eq_of_reg_writeResult_ne hk⟩
  | load ho _ => exact ⟨by simp [ho], eq_of_reg_writeResult_ne hk⟩
  | branch | loadRaises | emit | halt | unlisted => exact absurd rfl hk

/-- The output grows by the low byte of register 0 at the OUT trap, and by nothing else (45_trap.md R110). -/
theorem exec_decode_out (h : exec (decode w) s = .next t) :
    t.out = if opcodeOf w = 0b1111#4 ∧ vectorOf w = 0x21#8 then s.out ++ [lowByte (s.reg 0)] else s.out := by
  cases exec_decode_effect h with
  | emit ho hv => exact (if_pos ⟨ho, hv⟩).symm
  | halt _ hv => exact (if_neg fun hout => hv hout.2).symm
  | branch ho | result ho _ | load ho _ | loadRaises ho _ | unlisted ho =>
    exact (if_neg fun hout => by simp [hout.1] at ho).symm

/-- How the instruction of a running machine can leave the run state, by its word (41_fetch_decode_execute.md R91). -/
theorem exec_decode_run (hr : s.run = .running) (h : exec (decode w) s = .next t) :
    (t.run = .halted ↔ opcodeOf w = 0b1111#4 ∧ vectorOf w ≠ 0x21#8) ∧
    (t.run = .faulted .unsupportedOpcodeError ↔
      opcodeOf w ∉ [0b0000#4, 0b0001#4, 0b0010#4, 0b0101#4, 0b1001#4, 0b1111#4]) ∧
    (t.run = .faulted .invalidAddressError ↔
      opcodeOf w = 0b0010#4 ∧ ¬ validAddress (effectiveAddress s.pc (pcOffset9Of w))) ∧
    t.run ≠ .idle := by
  cases exec_decode_effect h with
  | branch ho => simp [hr, ho]
  | result ho v =>
    simp only [List.mem_cons, List.not_mem_nil, or_false] at ho
    obtain ho | ho | ho := ho <;> simp [hr, ho]
  | load ho hv => simp [hr, ho, hv]
  | loadRaises ho hv => simp [ho, hv]
  | emit ho hv => simp [hr, ho, hv]
  | halt ho hv => simp [ho, hv]
  | unlisted ho =>
    have hld : opcodeOf w ≠ 0b0010#4 := fun e => ho (by simp [e])
    have htrap : opcodeOf w ≠ 0b1111#4 := fun e => ho (by simp [e])
    simp [ho, hld, htrap]

/-! ## A step -/

/-- Everything a step of a running machine can be: a failed fetch, or the fetched word's instruction. -/
theorem step_running_cases (hr : s.run = .running) (h : step s = .next t) :
    (49 < s.pc.toNat ∧ t = s.raise .invalidAddressError) ∨
      (s.pc.toNat ≤ 49 ∧ exec (decode (s.mem.word s.pc.toNat)) s.fetched = .next t) := by
  obtain ⟨hstop | hstop, -⟩ | ⟨-, hp, rfl⟩ | ⟨-, hp, hx⟩ := step_cases h
  · simp [hr] at hstop
  · simp [hr] at hstop
  · exact .inl ⟨hp, rfl⟩
  · exact .inr ⟨hp, hx⟩

/-- No step writes memory, whatever the run state (20_memory.md R38). -/
theorem step_mem (h : step s = .next t) : t.mem = s.mem := by
  obtain ⟨-, rfl⟩ | ⟨-, -, rfl⟩ | ⟨-, -, hx⟩ := step_cases h
  · rfl
  · rfl
  · exact (exec_decode_mem hx).trans s.fetched_mem

end Sys2Proof.Machine
end

section
/-! PROOFS. The state elements over a step (10_state.md R17 to R29), and the flags of a value (R23). -/

namespace Sys2Proof.Machine

/-- The N flag is the sign bit. -/
theorem toInt_neg_iff_getLsbD (v : Word) : v.toInt < 0 ↔ v.getLsbD 15 = true := by
  rw [← BitVec.msb_eq_getLsbD_last, BitVec.msb_eq_toInt, decide_eq_true_iff]

theorem toInt_eq_zero_iff (v : Word) : v.toInt = 0 ↔ v = 0x0000#16 := by
  rw [← BitVec.toInt_inj]; rfl

/-- Settles O40, from the three answers of `flagsOf`: the sign bit and the test for zero are read off the signed view. -/
theorem flagsFollowTheSign : Obligations.FlagsFollowTheSign := fun v => by
  refine ⟨flagsOf_tells v, ?_⟩
  have hneg := toInt_neg_iff_getLsbD v
  have hzero := toInt_eq_zero_iff v
  obtain ⟨h, e⟩ | ⟨h, e⟩ | ⟨h, e⟩ := flagsOf_cases v
  · have hv : v ≠ 0x0000#16 := fun hv => by have := hzero.mpr hv; omega
    rw [e, hneg.mp h]
    simp [hv]
  · rw [e, hzero.mp h]
    decide
  · have hv : v ≠ 0x0000#16 := fun hv => by have := hzero.mpr hv; omega
    have hs : v.getLsbD 15 = false := Bool.eq_false_iff.mpr fun hb => by have := hneg.mpr hb; omega
    rw [e, hs]
    simp [hv]

/-- Settles O28, by the effect of the word's instruction: a written result sets the flags of the value it leaves in the
destination, every other effect keeps them. -/
theorem flagsAreTheLastResults : Obligations.FlagsAreTheLastResults := by
  rintro s t w ⟨hr, hp, rfl⟩ h
  rw [step_exec hr hp] at h
  change (opcodeOf _ ∈ _ → FlagsTell t.cc (t.reg (drOf _))) ∧
    (opcodeOf _ = _ → if t.run = .running then FlagsTell t.cc (t.reg (drOf _)) else t.cc = s.cc) ∧ (opcodeOf _ ∉ _ → _)
  cases exec_decode_effect h with
  | result ho v =>
    exact ⟨fun _ => writeResult_flagsTell _ _ v, fun hld => by simp [hld] at ho,
      fun hno => absurd (List.mem_append_left [0b0010#4] ho) hno⟩
  | load ho hv =>
    refine ⟨fun hres => by simp [ho] at hres, fun _ => ?_, fun hno => by simp [ho] at hno⟩
    rw [if_pos (show (s.fetched.writeResult _ _).run = .running from hr)]
    exact writeResult_flagsTell _ _ _
  | branch ho | loadRaises ho _ | emit ho _ | halt ho _ => simp [ho]
  | unlisted ho =>
    refine ⟨fun hres => absurd ?_ ho, fun hld => by simp [hld] at ho, fun _ => rfl⟩
    simp only [List.mem_cons, List.not_mem_nil, or_false] at hres ⊢
    tauto

/-- Settles O29: a step that changes a register has executed an instruction, since the other steps keep all eight. -/
theorem onlyDrIsWritten : Obligations.OnlyDrIsWritten := by
  intro s t h k hk
  obtain ⟨-, rfl⟩ | ⟨-, -, rfl⟩ | ⟨hr, hp, hx⟩ := step_cases h
  · exact absurd rfl hk
  · exact absurd rfl hk
  · exact ⟨⟨hr, hp, rfl⟩, exec_decode_reg_changed hx hk⟩

/-- Settles O30: the fetch writes `ir` and increments `pc`, and the instruction keeps both unless it is a taken BR. -/
theorem pcAdvancesAndIrHoldsTheWord : Obligations.PcAdvancesAndIrHoldsTheWord := by
  intro s t hr h
  obtain ⟨hp, rfl⟩ | ⟨hp, hx⟩ := step_running_cases hr h
  · rw [if_pos hp]; exact ⟨rfl, rfl⟩
  · rw [if_neg (by omega)]
    have hir : t.ir = s.mem.word s.pc.toNat := exec_decode_ir hx
    exact ⟨hir, by rw [hir]; exact exec_decode_pc hx⟩

/-- Settles O31: a step that executes no instruction keeps the output. -/
theorem outputGrowsByOutAlone : Obligations.OutputGrowsByOutAlone := by
  intro s t h
  obtain ⟨hr, rfl⟩ | ⟨-, hp, rfl⟩ | ⟨hr, hp, hx⟩ := step_cases h
  · exact (if_neg fun hout => by simp [hout.1] at hr).symm
  · exact (if_neg fun hout => by omega).symm
  · simp only [hr, hp, true_and]
    exact exec_decode_out (s := s.fetched) hx

/-- Settles O26: a failed fetch is the case above 49; below it the ending is the fetched instruction's. -/
theorem runningStopsExactlyWhen : Obligations.RunningStopsExactlyWhen := by
  intro s t hr h
  obtain ⟨hp, rfl⟩ | ⟨hp, hx⟩ := step_running_cases hr h
  · have hp' : ¬ s.pc.toNat ≤ 49 := by omega
    simp [hp, hp']
  · have hp' : ¬ 49 < s.pc.toNat := by omega
    simp only [hp, hp', true_and, false_or]
    exact exec_decode_run (s := s.fetched) hr hx

/-! ## Outside `Running` -/

/-- A state that a step answers again is the answer of any number of steps. -/
theorem run_of_step_self {s : State} (h : step s = .next s) (n : Nat) :
    Host.Core.run Sys2Proof.core n s = .next s := by
  induction n with
  | zero => exact run_zero s
  | succ n ih => rw [run_succ_of_next h, ih]

/-- Settles O25: an idle or halted machine's step answers the same state, a faulted machine's the fault. -/
theorem stoppedMachinesStayStopped : Obligations.StoppedMachinesStayStopped := fun _ n =>
  ⟨fun hstop => run_of_step_self (hstop.elim step_idle step_halted) n,
    fun _ hf => run_succ_of_fault (step_faulted hf) n⟩

/-! ## The reset state -/

/-- Settles O33, register by register. -/
theorem resetRegistersHoldTheirNumbers : Obligations.ResetRegistersHoldTheirNumbers := by
  unfold Obligations.ResetRegistersHoldTheirNumbers; decide

/-- Settles O34: memory is the empty list of cells, which reads as zero everywhere. -/
theorem resetClearsTheRest : Obligations.ResetClearsTheRest := ⟨rfl, rfl, rfl, Memory.word_nil, rfl, rfl⟩

end Sys2Proof.Machine
end

section
/-! PROOFS. An instruction reads the registers it names and no other (10_state.md R17, 43_operate.md R100). -/

namespace Sys2Proof.Machine

/-- The conclusion of `Obligations.OnlyNamedRegistersAreRead` for the states `t` and `t'` that instruction `i` answers
for `s` and `s'`. -/
structure AgreeAfter (i : Instr) (s s' t t' : State) : Prop where
  same_but_regs : t.SameButRegs t'
  written : ∀ k, i.writes = some k → t'.reg k = t.reg k ∨
    (t.run = .faulted .invalidAddressError ∧ t.reg k = s.reg k ∧ t'.reg k = s'.reg k)
  kept : ∀ k, i.writes ≠ some k → t.reg k = s.reg k ∧ t'.reg k = s'.reg k

variable {i : Instr} {s s' t t' : State}

/-- A state that differs in the registers alone is the other one with its own registers. -/
theorem State.SameButRegs.eq_with_regs (h : s.SameButRegs s') : s' = { s with regs := s'.regs } := by
  obtain ⟨hpc, hir, hcc, hmem, hrun, hout⟩ := h
  rw [← hpc, ← hir, ← hcc, ← hmem, ← hrun, ← hout]

/-- The same result, written to the same destination. -/
theorem agreeAfter_writeResult {dr : RegIdx} (hw : i.writes = some dr) (hs : s.SameButRegs s') (v : Word) :
    AgreeAfter i s s' (s.writeResult dr v) (s'.writeResult dr v) where
  same_but_regs := by
    obtain ⟨hpc, hir, -, hmem, hrun, hout⟩ := hs
    exact ⟨hpc, hir, rfl, hmem, hrun, hout⟩
  written k hk := by
    obtain rfl : dr = k := Option.some.inj (hw.symm.trans hk)
    exact .inl (by simp only [State.reg_writeResult, if_pos])
  kept k hk := by
    have hne : k ≠ dr := fun e => hk (e ▸ hw)
    simp only [State.reg_writeResult, if_neg hne, and_self]

/-- An instruction that writes no register, or an LD that raises. -/
theorem agreeAfter_of_regs_eq (ht : t.regs = s.regs) (ht' : t'.regs = s'.regs) (hs : t.SameButRegs t')
    (hw : i.writes = none ∨ t.run = .faulted .invalidAddressError) : AgreeAfter i s s' t t' := by
  have hk : ∀ k, t.reg k = s.reg k ∧ t'.reg k = s'.reg k := fun k => by simp only [State.reg, ht, ht', and_self]
  refine ⟨hs, fun k hwk => ?_, fun k _ => hk k⟩
  obtain hnone | hrun := hw
  · simp [hnone] at hwk
  · exact .inr ⟨hrun, hk k⟩

/-- A BR in two states with the same flags branches in both or in neither. -/
theorem execBr_agreeAfter {nzp : CC} {off : BitVec 9} {rs : Vector Word 8} (h : execBr nzp off s = .next t)
    (h' : execBr nzp off { s with regs := rs } = .next t') :
    AgreeAfter (.br nzp off) s { s with regs := rs } t t' := by
  unfold execBr at h h'
  dsimp only at h'
  split at h
  · next hb =>
    rw [if_pos hb] at h'; cases h; cases h'
    exact agreeAfter_of_regs_eq rfl rfl ⟨rfl, rfl, rfl, rfl, rfl, rfl⟩ (.inl rfl)
  · next hb =>
    rw [if_neg hb] at h'; cases h; cases h'
    exact agreeAfter_of_regs_eq rfl rfl ⟨rfl, rfl, rfl, rfl, rfl, rfl⟩ (.inl rfl)

/-- An LD in two states with the same `pc` and memory loads the same word or raises in both. -/
theorem execLd_agreeAfter {dr : RegIdx} {off : BitVec 9} {rs : Vector Word 8} (h : execLd dr off s = .next t)
    (h' : execLd dr off { s with regs := rs } = .next t') :
    AgreeAfter (.ld dr off) s { s with regs := rs } t t' := by
  by_cases hv : validAddress (effectiveAddress s.pc off)
  · rw [execLd_of_valid hv] at h
    rw [execLd_of_valid (s := { s with regs := rs }) hv] at h'
    have hs : s.SameButRegs { s with regs := rs } := ⟨rfl, rfl, rfl, rfl, rfl, rfl⟩
    cases h; cases h'
    exact agreeAfter_writeResult rfl hs _
  · rw [execLd_of_invalid hv] at h
    rw [execLd_of_invalid (s := { s with regs := rs }) hv] at h'
    cases h; cases h'
    exact agreeAfter_of_regs_eq rfl rfl ⟨rfl, rfl, rfl, rfl, rfl, rfl⟩ (.inr rfl)

/-- A TRAP emits the same byte in two states that agree on register 0 if it is OUT, and halts in both if it is not. -/
theorem execTrap_agreeAfter {vector : BitVec 8} {rs : Vector Word 8}
    (hreg : ∀ k ∈ (Instr.trap vector).reads, ({ s with regs := rs } : State).reg k = s.reg k)
    (h : execTrap vector s = .next t) (h' : execTrap vector { s with regs := rs } = .next t') :
    AgreeAfter (.trap vector) s { s with regs := rs } t t' := by
  unfold execTrap at h h'
  split at h
  · next hv =>
    rw [if_pos hv, hreg 0 (by simp [Instr.reads, hv])] at h'; cases h; cases h'
    exact agreeAfter_of_regs_eq rfl rfl ⟨rfl, rfl, rfl, rfl, rfl, rfl⟩ (.inl rfl)
  · next hv =>
    rw [if_neg hv] at h'; cases h; cases h'
    exact agreeAfter_of_regs_eq rfl rfl ⟨rfl, rfl, rfl, rfl, rfl, rfl⟩ (.inl rfl)

/-- Settles O32, instruction by instruction: the operands agree, so the same result is written. -/
theorem onlyNamedRegistersAreRead : Obligations.OnlyNamedRegistersAreRead := by
  intro i s s' t t' hs hreg h h'
  suffices hagree : AgreeAfter i s s' t t' from ⟨hagree.same_but_regs, hagree.written, hagree.kept⟩
  obtain ⟨rs, rfl⟩ : ∃ rs, s' = { s with regs := rs } := ⟨_, hs.eq_with_regs⟩
  cases i with
  | br nzp off => exact execBr_agreeAfter h h'
  | addReg dr sr1 sr2 =>
    cases h; cases h'
    rw [hreg sr1 (by simp [Instr.reads]), hreg sr2 (by simp [Instr.reads])]
    exact agreeAfter_writeResult rfl hs _
  | addImm dr sr1 imm5 =>
    cases h; cases h'
    rw [hreg sr1 (by simp [Instr.reads])]
    exact agreeAfter_writeResult rfl hs _
  | ld dr off => exact execLd_agreeAfter h h'
  | andReg dr sr1 sr2 =>
    cases h; cases h'
    rw [hreg sr1 (by simp [Instr.reads]), hreg sr2 (by simp [Instr.reads])]
    exact agreeAfter_writeResult rfl hs _
  | andImm dr sr1 imm5 =>
    cases h; cases h'
    rw [hreg sr1 (by simp [Instr.reads])]
    exact agreeAfter_writeResult rfl hs _
  | not dr sr =>
    cases h; cases h'
    rw [hreg sr (by simp [Instr.reads])]
    exact agreeAfter_writeResult rfl hs _
  | trap vector => exact execTrap_agreeAfter hreg h h'
  | illegal0011 | illegal0100 | illegal0110 | illegal0111 | illegal1000 | illegal1010 | illegal1011 | illegal1100
  | illegal1101 | illegal1110 =>
    cases h; cases h'
    exact agreeAfter_of_regs_eq rfl rfl ⟨rfl, rfl, rfl, rfl, rfl, rfl⟩ (.inl rfl)

end Sys2Proof.Machine
end

section
/-! PROOFS. Legal states: reset makes one, every step and every host port keeps it, so every reachable state is one
(10_state.md R25 to R32, 50_interfaces.md R115 to R119, 60_exceptions.md R126 to R132). -/

namespace Sys2Proof.Machine

variable {s t : State}

/-! ## A stop is explained -/

/-- After a fetch, `ir` is the word before `pc` (41_fetch_decode_execute.md R88). -/
theorem fetched_irFetched (hp : s.pc.toNat ≤ 49) : s.fetched.IrFetched := by
  have hpc : s.fetched.pc.toNat = s.pc.toNat + 1 := toNat_incr hp
  refine ⟨by omega, by omega, ?_⟩
  rw [hpc]; rfl

theorem stopExplained_of_running (h : s.run = .running) : s.StopExplained := by
  unfold State.StopExplained; rw [h]; trivial

/-- A running machine's instruction either goes on or stops for the reason that `ir` shows: the ways to stop write
neither `pc` nor `ir`. -/
theorem exec_ir_stopExplained (hr : s.run = .running) (hir : s.IrFetched) (h : exec (decode s.ir) s = .next t) :
    t.StopExplained := by
  cases exec_decode_effect h with
  | loadRaises ho hv => exact .inr ⟨hir, ho, hv⟩
  | halt ho hv => exact ⟨hir, ho, hv⟩
  | unlisted ho => exact ⟨hir, ho⟩
  | branch | result | load | emit => exact stopExplained_of_running hr

/-! ## Steps -/

/-- An instruction leaves the flags alone or sets those of a value (10_state.md R26). -/
theorem exec_decode_ccLegal {w : Word} (hc : ccLegal s.cc) (h : exec (decode w) s = .next t) : ccLegal t.cc := by
  cases exec_decode_effect h with
  | result | load => exact flagsOf_legal _
  | branch | loadRaises | emit | halt | unlisted => exact hc

/-- Settles O36: an idle or halted machine is unchanged, a failed fetch is explained by `pc`, and the instruction of a
fetched word by the `ir` that the fetch has just written. -/
theorem stepKeepsLegal : Obligations.StepKeepsLegal := by
  intro s t hs h
  have hmem : t.mem.wf = true := step_mem h ▸ hs.mem_wf
  obtain ⟨-, rfl⟩ | ⟨-, hp, rfl⟩ | ⟨hr, hp, hx⟩ := step_cases h
  · exact hs
  · exact ⟨hmem, hs.cc_legal, .inl hp, nofun⟩
  · obtain ⟨-, -, -, hidle⟩ := exec_decode_run (s := s.fetched) hr hx
    exact ⟨hmem, exec_decode_ccLegal (s := s.fetched) hs.cc_legal hx,
      exec_ir_stopExplained (s := s.fetched) hr (fetched_irFetched hp) hx, fun h => absurd h hidle⟩

/-! ## Reset and the host's ports -/

/-- Settles O35: no cell is listed, no flag is set, and there is no stop to explain. -/
theorem resetIsLegal : Obligations.ResetIsLegal := ⟨Memory.wf_nil, .inl rfl, trivial, fun _ => rfl⟩

theorem start_legal (hs : s.Legal) : s.start.Legal := by
  by_cases hr : s.run = .idle
  · rw [start_of_idle hr]
    exact ⟨hs.mem_wf, hs.cc_legal, stopExplained_of_running rfl, nofun⟩
  · rw [start_of_ne_idle hr]
    exact hs

/-- A load changes memory alone, so a fresh idle state stays one. -/
theorem load_legal {ws : List Word} (hs : s.Legal) (h : s.load ws = .ok t) : t.Legal := by
  obtain ⟨hr, ht, hwf, -⟩ := load_spec h
  have hfresh : t = { State.reset with mem := t.mem } := by rw [hs.idle_fresh hr] at ht; exact ht
  refine ⟨hwf, ?_, ?_, fun _ => hfresh⟩
  · rw [hfresh]; exact .inl rfl
  · rw [hfresh]; trivial

/-- Settles O37, port by port. -/
theorem hostPortsKeepLegal : Obligations.HostPortsKeepLegal := by
  refine fun s => ⟨start_of_idle, start_of_ne_idle, fun ws t h => ?_, rfl, fun hs =>
    ⟨start_legal hs, resetIsLegal, fun _ _ => load_legal hs⟩⟩
  obtain ⟨hr, ht, -⟩ := load_spec h
  exact ⟨hr, ht⟩

theorem start_mem (s : State) : s.start.mem = s.mem := by
  unfold State.start; split <;> rfl

/-- Settles O38, by induction on how the state was reached: legality by the lemma of each event, and word 49 because a
load leaves it zero and no other event writes memory. -/
theorem reachableStatesAreLegal : Obligations.ReachableStatesAreLegal := by
  intro s hs
  induction hs with
  | reset => exact ⟨resetIsLegal, Memory.word_nil 49⟩
  | load ws _ h ih =>
    obtain ⟨hlegal, -⟩ := ih
    obtain ⟨-, -, -, hzero⟩ := load_spec h
    exact ⟨load_legal hlegal h, hzero⟩
  | start _ ih =>
    obtain ⟨hlegal, hzero⟩ := ih
    exact ⟨start_legal hlegal, by rw [start_mem]; exact hzero⟩
  | step _ h ih =>
    obtain ⟨hlegal, hzero⟩ := ih
    exact ⟨stepKeepsLegal _ _ hlegal h, by rw [step_mem h]; exact hzero⟩

end Sys2Proof.Machine
end

section
/-! PROOFS. The memory primitives, and the two views of an address (20_memory.md R35 to R42, 44_load.md R106). -/

namespace Sys2Proof.Machine

/-! ## Reads and writes -/

theorem memWrite_of_invalid (m : Memory) {addr : Int} (v : Word) (h : ¬ validAddress addr) :
    memWrite m addr v = .error .invalidAddressError :=
  if_neg h

/-- A read outside 0..49 raises whatever the memory, and two addresses inside it name two words. -/
theorem memRead_setWord_ne (m : Memory) {a b : Int} (v : Word) (ha : validAddress a) (h : b ≠ a) :
    memRead (m.setWord a.toNat v) b = memRead m b := by
  by_cases hb : validAddress b
  · have hne : b.toNat ≠ a.toNat := by unfold validAddress at ha hb; omega
    rw [memRead_of_valid _ hb, memRead_of_valid _ hb, Memory.word_setWord_ne m v hne]
  · rw [memRead_of_invalid _ hb, memRead_of_invalid _ hb]

/-- Settles O42, by whether the address is valid. -/
theorem memoryReadsBackWrites : Obligations.MemoryReadsBackWrites := by
  intro m a v hm
  split
  · next h =>
    have hv : validAddress a := h
    have ha : a.toNat < Config.memWords := by simp only [Config.memWords]; omega
    exact ⟨m.setWord a.toNat v, memWrite_of_valid m v hv, Memory.setWord_wf v hm ha,
      by rw [memRead_of_valid _ hv, Memory.word_setWord_same _ v hm ha], fun b => memRead_setWord_ne m v hv⟩
  · next h =>
    have hv : ¬ validAddress a := h
    exact ⟨memWrite_of_invalid m v hv, memRead_of_invalid m hv⟩

/-- Settles O27: the step's rule for memory as data, hence cell by cell. -/
theorem noStepWritesMemory : Obligations.NoStepWritesMemory := fun _ _ h =>
  ⟨step_mem h, fun _ => by rw [step_mem h]⟩

/-- Settles O23, by what a step answers where the fetch fails. -/
theorem fetchOutsideMemoryRaises : Obligations.FetchOutsideMemoryRaises := fun _ => step_fetch_fails

/-! ## The two views of an address -/

/-- The signed view of a valid 16-bit address is its unsigned view (20_memory.md R36). -/
theorem toInt_eq_toNat_of_validAddress {v : Word} (h : validAddress v.toInt) : v.toInt = v.toNat := by
  have hle := (validAddress_toNat v).mp ((validAddress_toNat_iff_toInt v).mpr h)
  exact BitVec.toInt_eq_toNat_of_lt (by omega)

/-- The 16-bit sum, read signed, is the effective address up to a multiple of 2^16 (40_datapath_primitives.md R73). -/
theorem branchTarget_toInt (pc : Word) (off : BitVec 9) :
    (branchTarget pc off).toInt = (effectiveAddress pc off).bmod 65536 := by
  unfold branchTarget effectiveAddress
  rw [BitVec.toInt_add, BitVec.toInt_signExtend_of_le (by decide)]

/-- A 9-bit offset moves a 16-bit `pc` too little to wrap into or out of 0..49 (44_load.md R106). -/
theorem validAddress_branchTarget_iff (pc : Word) (off : BitVec 9) :
    validAddress (branchTarget pc off).toInt ↔ validAddress (effectiveAddress pc off) := by
  have hpc := pc.toInt_lt
  have hpc' := pc.le_toInt
  have hoff := off.toInt_lt
  have hoff' := off.le_toInt
  rw [branchTarget_toInt, Int.bmod_def]
  unfold validAddress effectiveAddress
  split <;> omega

theorem effectiveAddress_eq_branchTarget {pc : Word} {off : BitVec 9} (h : validAddress (effectiveAddress pc off)) :
    effectiveAddress pc off = (branchTarget pc off).toInt := by
  rw [branchTarget_toInt, Int.bmod_eq_of_le (by omega) (by omega)]

/-- A read at a 16-bit value is the same by either view of the value. -/
theorem memRead_toNat_eq_memRead_toInt (m : Memory) (v : Word) : memRead m (v.toNat : Int) = memRead m v.toInt := by
  by_cases hv : validAddress v.toInt
  · rw [toInt_eq_toNat_of_validAddress hv]
  · rw [memRead_of_invalid m hv, memRead_of_invalid m (mt (validAddress_toNat_iff_toInt v).mp hv)]

theorem exec_ld (dr : RegIdx) (off : BitVec 9) (s : State) : exec (.ld dr off) s = execLd dr off s := rfl

/-- Settles O41: LD by the agreement of the wrapped sum with the effective address, the fetch and the read by the
agreement of the two views of one value. -/
theorem addressViewsAgree : Obligations.AddressViewsAgree := by
  refine ⟨fun dr off s => ?_, fun s => ?_, memRead_toNat_eq_memRead_toInt⟩
  · rw [exec_ld]
    change ∃ t, _ ∧ if validAddress (branchTarget s.pc off).toInt then
      _ = (branchTarget s.pc off).toInt ∧ s.WritesOnly t dr (s.mem.word (branchTarget s.pc off).toNat) else _
    by_cases hv : validAddress (effectiveAddress s.pc off)
    · have hb := (validAddress_branchTarget_iff s.pc off).mpr hv
      have he := effectiveAddress_eq_branchTarget hv
      refine ⟨_, execLd_of_valid hv, ?_⟩
      rw [if_pos hb, he, toInt_eq_toNat_of_validAddress hb]
      exact ⟨rfl, writeResult_writesOnly s dr _⟩
    · refine ⟨_, execLd_of_invalid hv, ?_⟩
      rw [if_neg (mt (validAddress_branchTarget_iff s.pc off).mp hv)]
      exact ⟨hv, rfl⟩
  · have hpc : validAddress s.pc.toInt ↔ s.pc.toNat ≤ 49 :=
      (validAddress_toNat_iff_toInt s.pc).symm.trans (validAddress_toNat s.pc)
    split
    · next h => exact fetch_of_le (hpc.mp h)
    · next h => exact fetch_of_lt (by have := mt hpc.mpr h; omega)

end Sys2Proof.Machine
end

section
/-! PROOFS. The invariant that tells a failed fetch from a failed LD: reset makes it, every step and every host port
keeps it, so it holds of every reachable state (20_memory.md R42, 60_exceptions.md R126). -/

namespace Sys2Proof.Machine

variable {s t : State}

/-- What `pc` and `ir` tell of a machine that `InvalidAddressError` has stopped: the conclusion that
`Obligations.StepKeepsErrorsTold` and `Obligations.AddressErrorsAreToldApart` share. -/
def State.TellsAddressError (s : State) : Prop :=
  if 49 < s.pc.toNat then s.pc = 50#16 → s.ir.extractLsb' 12 4 ≠ 0b0010#4
  else
    1 ≤ s.pc.toNat ∧ s.ir = s.mem.word (s.pc.toNat - 1) ∧ s.ir.extractLsb' 12 4 = 0b0010#4 ∧
    ¬ validAddress (s.pc.toInt + (s.ir.extractLsb' 0 9).toInt)

/-- What an explained stop says of this error (60_exceptions.md R126). -/
theorem stopExplained_iff_of_invalidAddressError (hf : s.run = .faulted .invalidAddressError) :
    s.StopExplained ↔ 49 < s.pc.toNat ∨
      (s.IrFetched ∧ opcodeOf s.ir = 0b0010#4 ∧ ¬ validAddress (s.pc.toInt + (pcOffset9Of s.ir).toInt)) := by
  unfold State.StopExplained; rw [hf]

/-- Above 49 the invariant shuts out an LD in `ir`; up to 49 the stop is explained by the LD alone. -/
theorem State.ErrorsTold.tellsAddressError (hs : s.ErrorsTold) (hf : s.run = .faulted .invalidAddressError) :
    s.TellsAddressError := by
  have hstop := (stopExplained_iff_of_invalidAddressError hf).mp hs.legal.stop_explained
  unfold State.TellsAddressError
  split
  · exact hs.no_ld_at_end
  · next hp =>
    obtain hp' | ⟨⟨hpos, -, hir⟩, ho, hv⟩ := hstop
    · exact absurd hp' hp
    · exact ⟨hpos, hir, ho, hv⟩

/-- An LD keeps the incremented `pc`, so it leaves `pc` = 50 only if it was fetched from address 49, where the word is
zero. -/
theorem exec_no_ld_at_end (hp : s.pc.toNat ≤ 49) (hz : s.mem.word 49 = 0x0000#16)
    (h : exec (decode (s.mem.word s.pc.toNat)) s.fetched = .next t) (hpc : t.pc = 50#16) :
    opcodeOf t.ir ≠ 0b0010#4 := by
  have hir : t.ir = s.mem.word s.pc.toNat := exec_decode_ir h
  intro ho
  rw [hir] at ho
  have hnext : t.pc = s.pc + 1 := by rw [exec_decode_pc h, if_neg fun hbr => by simp [hbr.1] at ho]; rfl
  have h49 : s.pc.toNat = 49 := by
    have := toNat_incr hp
    rw [← hnext, hpc] at this
    exact (Nat.succ.inj this).symm
  rw [h49, hz] at ho
  exact absurd ho (by decide)

theorem step_errorsTold (hs : s.ErrorsTold) (h : step s = .next t) : t.ErrorsTold where
  legal := stepKeepsLegal s t hs.legal h
  last_word_zero := by rw [step_mem h]; exact hs.last_word_zero
  no_ld_at_end := by
    obtain ⟨-, rfl⟩ | ⟨-, -, rfl⟩ | ⟨-, hp, hx⟩ := step_cases h
    · exact hs.no_ld_at_end
    · exact hs.no_ld_at_end
    · exact exec_no_ld_at_end hp hs.last_word_zero hx

/-- Settles O49: the step keeps the invariant, and a state that meets it tells its own error. -/
theorem stepKeepsErrorsTold : Obligations.StepKeepsErrorsTold := fun _ _ hs h =>
  have ht := step_errorsTold hs h
  ⟨ht, ht.tellsAddressError⟩

/-! ## Reset and the host's ports -/

theorem reset_errorsTold : State.reset.ErrorsTold :=
  ⟨resetIsLegal, Memory.word_nil 49, fun h => absurd h (by decide)⟩

theorem start_errorsTold (hs : s.ErrorsTold) : s.start.ErrorsTold where
  legal := start_legal hs.legal
  last_word_zero := by rw [start_mem]; exact hs.last_word_zero
  no_ld_at_end := by
    by_cases hr : s.run = .idle
    · rw [start_of_idle hr]; exact hs.no_ld_at_end
    · rw [start_of_ne_idle hr]; exact hs.no_ld_at_end

theorem load_errorsTold {ws : List Word} (hs : s.ErrorsTold) (h : s.load ws = .ok t) : t.ErrorsTold := by
  obtain ⟨-, ht, -, hzero⟩ := load_spec h
  refine ⟨load_legal hs.legal h, hzero, ?_⟩
  rw [ht]
  exact hs.no_ld_at_end

/-- Settles O50, port by port. -/
theorem resetAndHostPortsKeepErrorsTold : Obligations.ResetAndHostPortsKeepErrorsTold :=
  ⟨reset_errorsTold, fun _ hs => ⟨start_errorsTold hs, fun _ _ => load_errorsTold hs⟩⟩

theorem Reachable.errorsTold (h : Reachable s) : s.ErrorsTold := by
  induction h with
  | reset => exact reset_errorsTold
  | load ws _ h ih => exact load_errorsTold ih h
  | start _ ih => exact start_errorsTold ih
  | step _ h ih => exact step_errorsTold ih h

/-- Settles O39: every reachable state meets the invariant. -/
theorem addressErrorsAreToldApart : Obligations.AddressErrorsAreToldApart := fun _ h =>
  h.errorsTold.tellsAddressError

end Sys2Proof.Machine
end

section
/-! PROOFS. A run over zero words (42_branch.md R98, 70_reset_and_hazards.md R154). -/

namespace Sys2Proof.Machine

variable {s : State}

theorem exec_br_of_not_taken {nzp : CC} (off : BitVec 9) (h : ¬ branchTaken nzp s.cc = true) :
    exec (.br nzp off) s = .next s := by
  change execBr nzp off s = _
  unfold execBr
  rw [if_neg h]

/-- A zero word is a BR with an empty mask: its step fetches it and changes nothing more. -/
theorem step_zero_word (hr : s.run = .running) (hp : s.pc.toNat ≤ 49) (hz : s.mem.word s.pc.toNat = 0x0000#16) :
    step s = .next s.fetched := by
  have hd : decode 0x0000#16 = .br 0b000#3 0 := by decide
  rw [step_exec hr hp, hz, hd]
  exact exec_br_of_not_taken 0 (by simp [branchTaken_iff])

/-- Settles O48, by induction on the number of zero words left. -/
theorem zeroWordsRunToTheEndOfMemory : Obligations.ZeroWordsRunToTheEndOfMemory := by
  intro s n
  induction n generalizing s with
  | zero =>
    intro hr hp _
    have hpc : s.pc = 50#16 := BitVec.eq_of_toNat_eq hp
    rw [run_succ_of_next (step_fetch_fails hr (by omega)), run_zero, ← hpc]
    rfl
  | succ n ih =>
    intro hr hp hz
    have hle : s.pc.toNat ≤ 49 := by omega
    have hword : s.mem.word s.pc.toNat = 0x0000#16 := hz _ le_rfl (by omega)
    have hpc : s.fetched.pc.toNat = s.pc.toNat + 1 := toNat_incr hle
    rw [run_succ_of_next (step_zero_word hr hle hword),
      ih s.fetched hr (by omega) fun a ha => hz a (by omega)]
    simp [State.fetched, hword]

end Sys2Proof.Machine
end

section
/-! PROOFS. The encoding: the decoder's answer said as a relation between a word and an instruction, and the round trips
that follow from it (30_encoding.md R52 to R65). -/

namespace Sys2Proof

open Laws.FixedBits (opcode mode)

/-! ## The rows of the opcode table -/

/-- The fields of `w` are the operands of the instruction, each field where its format puts it (30_encoding.md R53 to
R59). -/
def HasFields (w : Word) : Instr → Prop
  | .br nzp off => nzpOf w = nzp ∧ pcOffset9Of w = off
  | .addReg dr sr1 sr2 => drOf w = dr ∧ sr1Of w = sr1 ∧ sr2Of w = sr2
  | .addImm dr sr1 imm5 => drOf w = dr ∧ sr1Of w = sr1 ∧ imm5Of w = imm5
  | .ld dr off => drOf w = dr ∧ pcOffset9Of w = off
  | .andReg dr sr1 sr2 => drOf w = dr ∧ sr1Of w = sr1 ∧ sr2Of w = sr2
  | .andImm dr sr1 imm5 => drOf w = dr ∧ sr1Of w = sr1 ∧ imm5Of w = imm5
  | .not dr sr => drOf w = dr ∧ sr1Of w = sr
  | .trap vector => vectorOf w = vector
  | .illegal0011 => True
  | .illegal0100 => True
  | .illegal0110 => True
  | .illegal0111 => True
  | .illegal1000 => True
  | .illegal1010 => True
  | .illegal1011 => True
  | .illegal1100 => True
  | .illegal1101 => True
  | .illegal1110 => True

/-- The word `w` stands for the instruction `i`: it has the opcode and the mode bit of the row (30_encoding.md R60, R63)
and the operands in its fields. -/
structure Matches (w : Word) (i : Instr) : Prop where
  opcode_eq : opcodeOf w = opcode i
  mode_eq : ∀ b, mode i = some b → modeOf w = b
  fields : HasFields w i

variable {w w' : Word} {i : Instr}

/-- In a row that fixes the mode bit, that bit is the one to check. -/
theorem Matches.of_mode {b : Bool} (ho : opcodeOf w = opcode i) (hi : mode i = some b) (hm : modeOf w = b)
    (hf : HasFields w i) : Matches w i :=
  ⟨ho, fun _ e => hm.trans (Option.some.inj (hi.symm.trans e)), hf⟩

theorem decode_eq_of_matches (h : Matches w i) : decode w = i := by
  obtain ⟨ho, hm, hf⟩ := h
  cases i with
  | br nzp off => obtain ⟨rfl, rfl⟩ := hf; exact decode_br ho
  | addReg dr sr1 sr2 => obtain ⟨rfl, rfl, rfl⟩ := hf; rw [decode_add ho, hm false rfl]; rfl
  | addImm dr sr1 imm5 => obtain ⟨rfl, rfl, rfl⟩ := hf; rw [decode_add ho, hm true rfl]; rfl
  | ld dr off => obtain ⟨rfl, rfl⟩ := hf; exact decode_ld ho
  | andReg dr sr1 sr2 => obtain ⟨rfl, rfl, rfl⟩ := hf; rw [decode_and ho, hm false rfl]; rfl
  | andImm dr sr1 imm5 => obtain ⟨rfl, rfl, rfl⟩ := hf; rw [decode_and ho, hm true rfl]; rfl
  | not dr sr => obtain ⟨rfl, rfl⟩ := hf; exact decode_not ho
  | trap vector => obtain rfl := hf; exact decode_trap ho
  | illegal0011 | illegal0100 | illegal0110 | illegal0111 | illegal1000 | illegal1010 | illegal1011 | illegal1100
  | illegal1101 | illegal1110 => unfold decode; rw [ho]; rfl

/-- Settles O4: a word with the opcode and the mode bit of a row matches the row's instruction of its own fields. -/
theorem opcodeSelectsRow : Obligations.OpcodeSelectsRow := by
  intro w
  refine ⟨decode_br, fun ho hm => decode_eq_of_matches (.of_mode ho rfl hm ⟨rfl, rfl, rfl⟩),
    fun ho hm => decode_eq_of_matches (.of_mode ho rfl hm ⟨rfl, rfl, rfl⟩), decode_ld,
    fun ho hm => decode_eq_of_matches (.of_mode ho rfl hm ⟨rfl, rfl, rfl⟩),
    fun ho hm => decode_eq_of_matches (.of_mode ho rfl hm ⟨rfl, rfl, rfl⟩), decode_not, decode_trap,
    ?_, ?_, ?_, ?_, ?_, ?_, ?_, ?_, ?_, ?_⟩ <;>
  exact fun ho => decode_eq_of_matches ⟨ho, nofun, trivial⟩

/-- Every word stands for some instruction: the sixteen opcodes and the two modes leave none out
(30_encoding.md R60). -/
theorem exists_matches (w : Word) : ∃ i, Matches w i := by
  obtain h0 | h1 | h2 | h3 | h4 | h5 | h6 | h7 | h8 | h9 | hA | hB | hC | hD | hE | hF := opcode_cases (opcodeOf w)
  · exact ⟨.br _ _, h0, nofun, rfl, rfl⟩
  · cases hm : modeOf w
    · exact ⟨.addReg _ _ _, .of_mode h1 rfl hm ⟨rfl, rfl, rfl⟩⟩
    · exact ⟨.addImm _ _ _, .of_mode h1 rfl hm ⟨rfl, rfl, rfl⟩⟩
  · exact ⟨.ld _ _, h2, nofun, rfl, rfl⟩
  · exact ⟨.illegal0011, h3, nofun, trivial⟩
  · exact ⟨.illegal0100, h4, nofun, trivial⟩
  · cases hm : modeOf w
    · exact ⟨.andReg _ _ _, .of_mode h5 rfl hm ⟨rfl, rfl, rfl⟩⟩
    · exact ⟨.andImm _ _ _, .of_mode h5 rfl hm ⟨rfl, rfl, rfl⟩⟩
  · exact ⟨.illegal0110, h6, nofun, trivial⟩
  · exact ⟨.illegal0111, h7, nofun, trivial⟩
  · exact ⟨.illegal1000, h8, nofun, trivial⟩
  · exact ⟨.not _ _, h9, nofun, rfl, rfl⟩
  · exact ⟨.illegal1010, hA, nofun, trivial⟩
  · exact ⟨.illegal1011, hB, nofun, trivial⟩
  · exact ⟨.illegal1100, hC, nofun, trivial⟩
  · exact ⟨.illegal1101, hD, nofun, trivial⟩
  · exact ⟨.illegal1110, hE, nofun, trivial⟩
  · exact ⟨.trap _, hF, nofun, rfl⟩

theorem matches_decode (w : Word) : Matches w (decode w) := by
  obtain ⟨i, h⟩ := exists_matches w
  rwa [decode_eq_of_matches h]

/-! ## The encoder -/

/-- A part of a joined value, with one part below it; with two and with three in the next lemmas. -/
theorem field_above_one {n k l : Nat} (a : BitVec n) (m : BitVec k) (b : BitVec l) :
    (a ++ m ++ b).extractLsb' (l + 0) k = m := by
  rw [extractLsb'_append_high, extractLsb'_append_low]

theorem field_above_two {n k l j : Nat} (a : BitVec n) (m : BitVec k) (b : BitVec l) (c : BitVec j) :
    (a ++ m ++ b ++ c).extractLsb' (j + (l + 0)) k = m := by
  rw [extractLsb'_append_high, field_above_one]

theorem field_above_three {n k l j p : Nat} (a : BitVec n) (m : BitVec k) (b : BitVec l) (c : BitVec j) (d : BitVec p) :
    (a ++ m ++ b ++ c ++ d).extractLsb' (p + (j + (l + 0))) k = m := by
  rw [extractLsb'_append_high, field_above_two]

/-- The encoder puts every operand into its field (30_encoding.md R54 to R59). -/
theorem encode_hasFields (i : Instr) : HasFields (encode i) i := by
  cases i with
  | br nzp off => exact ⟨field_above_one _ nzp off, extractLsb'_append_low _ off⟩
  | addReg dr sr1 sr2 | andReg dr sr1 sr2 =>
    exact ⟨field_above_three _ dr sr1 _ sr2, field_above_two _ sr1 _ sr2, extractLsb'_append_low _ sr2⟩
  | addImm dr sr1 imm5 | andImm dr sr1 imm5 =>
    exact ⟨field_above_three _ dr sr1 _ imm5, field_above_two _ sr1 _ imm5, extractLsb'_append_low _ imm5⟩
  | ld dr off => exact ⟨field_above_one _ dr off, extractLsb'_append_low _ off⟩
  | not dr sr => exact ⟨field_above_two _ dr sr _, field_above_one _ sr _⟩
  | trap vector => exact extractLsb'_append_low _ vector
  | illegal0011 | illegal0100 | illegal0110 | illegal0111 | illegal1000 | illegal1010 | illegal1011 | illegal1100
  | illegal1101 | illegal1110 => trivial

/-- The laws of the fixed bits, for every instruction at once. -/
theorem encode_fixedBits : ∀ i : Instr, Laws.FixedBits.Statement i
  | .br nzp off => Laws.FixedBits.br nzp off
  | .addReg dr sr1 sr2 => Laws.FixedBits.addReg dr sr1 sr2
  | .addImm dr sr1 imm5 => Laws.FixedBits.addImm dr sr1 imm5
  | .ld dr off => Laws.FixedBits.ld dr off
  | .andReg dr sr1 sr2 => Laws.FixedBits.andReg dr sr1 sr2
  | .andImm dr sr1 imm5 => Laws.FixedBits.andImm dr sr1 imm5
  | .not dr sr => Laws.FixedBits.not dr sr
  | .trap vector => Laws.FixedBits.trap vector
  | .illegal0011 => Laws.FixedBits.illegal0011
  | .illegal0100 => Laws.FixedBits.illegal0100
  | .illegal0110 => Laws.FixedBits.illegal0110
  | .illegal0111 => Laws.FixedBits.illegal0111
  | .illegal1000 => Laws.FixedBits.illegal1000
  | .illegal1010 => Laws.FixedBits.illegal1010
  | .illegal1011 => Laws.FixedBits.illegal1011
  | .illegal1100 => Laws.FixedBits.illegal1100
  | .illegal1101 => Laws.FixedBits.illegal1101
  | .illegal1110 => Laws.FixedBits.illegal1110

theorem matches_encode (i : Instr) : Matches (encode i) i :=
  have ⟨ho, hm⟩ := encode_fixedBits i
  ⟨ho, hm, encode_hasFields i⟩

/-- Settles O1: the written word stands for the instruction, by its fixed bits and by its fields. -/
theorem decodeReadsBackEncode : Obligations.DecodeReadsBackEncode := fun i => decode_eq_of_matches (matches_encode i)

/-! ## Unused bits (30_encoding.md R64) -/

/-- Two words agree under a mask iff they agree on its ones. -/
theorem and_eq_and_iff (m : Word) :
    w &&& m = w' &&& m ↔ ∀ j, m.getLsbD j = true → w'.getLsbD j = w.getLsbD j := by
  refine ⟨fun h j hj => ?_, fun h => BitVec.eq_of_getLsbD_eq fun j _ => ?_⟩
  · simpa [hj] using (congrArg (·.getLsbD j) h).symm
  · cases hj : m.getLsbD j
    · simp [hj]
    · simp [hj, h j hj]

theorem and_or_eq_iff (m n : Word) :
    w &&& (m ||| n) = w' &&& (m ||| n) ↔ w &&& m = w' &&& m ∧ w &&& n = w' &&& n := by
  simp only [and_eq_and_iff, BitVec.getLsbD_or, Bool.or_eq_true, or_imp, forall_and]

/-- The word whose ones are the `k` bits from bit `o` up. -/
def fieldMask (o k : Nat) : Word := (BitVec.allOnes k).setWidth 16 <<< o

theorem getLsbD_fieldMask (o k j : Nat) : (fieldMask o k).getLsbD j = true ↔ j < 16 ∧ o ≤ j ∧ j < o + k := by
  simp only [fieldMask, BitVec.getLsbD_shiftLeft, BitVec.getLsbD_setWidth, BitVec.getLsbD_allOnes, Bool.and_eq_true,
    decide_eq_true_eq, Bool.not_eq_true', decide_eq_false_iff_not]
  omega

/-- Two words agree under a field's mask iff they agree on the field. -/
theorem and_fieldMask_eq_iff (o k : Nat) :
    w &&& fieldMask o k = w' &&& fieldMask o k ↔ w'.extractLsb' o k = w.extractLsb' o k := by
  simp only [and_eq_and_iff, getLsbD_fieldMask]
  refine ⟨fun h => BitVec.eq_of_getLsbD_eq fun j hj => ?_, fun h j ⟨_, ho, hk⟩ => ?_⟩
  · by_cases h16 : o + j < 16
    · simpa [hj] using h (o + j) ⟨h16, by omega, by omega⟩
    · simp [BitVec.getLsbD_of_ge _ _ (Nat.le_of_not_lt h16)]
  · obtain ⟨d, rfl⟩ := Nat.exists_eq_add_of_le ho
    simpa [show d < k by omega] using congrArg (·.getLsbD d) h

/-- The mode bit as a field of one bit. -/
theorem extractLsb'_mode_eq_iff : w'.extractLsb' 5 1 = w.extractLsb' 5 1 ↔ modeOf w' = modeOf w := by
  rw [← and_fieldMask_eq_iff, and_eq_and_iff]
  simp only [getLsbD_fieldMask]
  refine ⟨fun h => h 5 (by decide), fun h j hj => ?_⟩
  obtain rfl : j = 5 := by omega
  exact h

/-- All bits are used, in the fields of BR and LD (R54, R57). -/
theorem agree_offset_iff : w &&& 0xFFFF#16 = w' &&& 0xFFFF#16 ↔
    opcodeOf w' = opcodeOf w ∧ drOf w' = drOf w ∧ pcOffset9Of w' = pcOffset9Of w := by
  rw [show 0xFFFF#16 = fieldMask 12 4 ||| (fieldMask 9 3 ||| fieldMask 0 9) by decide]
  simp only [and_or_eq_iff, and_fieldMask_eq_iff]
  rfl

/-- All bits are used, in the fields of ADD and AND in immediate mode (R56). -/
theorem agree_imm_iff : w &&& 0xFFFF#16 = w' &&& 0xFFFF#16 ↔
    opcodeOf w' = opcodeOf w ∧ modeOf w' = modeOf w ∧ drOf w' = drOf w ∧ sr1Of w' = sr1Of w ∧
      imm5Of w' = imm5Of w := by
  rw [show 0xFFFF#16 = fieldMask 12 4 ||| (fieldMask 5 1 ||| (fieldMask 9 3 ||| (fieldMask 6 3 ||| fieldMask 0 5))) by
    decide]
  simp only [and_or_eq_iff, and_fieldMask_eq_iff, extractLsb'_mode_eq_iff]
  rfl

/-- Bits 4 and 3 are unused in register mode (R55). -/
theorem agree_reg_iff : w &&& 0xFFE7#16 = w' &&& 0xFFE7#16 ↔
    opcodeOf w' = opcodeOf w ∧ modeOf w' = modeOf w ∧ drOf w' = drOf w ∧ sr1Of w' = sr1Of w ∧
      sr2Of w' = sr2Of w := by
  rw [show 0xFFE7#16 = fieldMask 12 4 ||| (fieldMask 5 1 ||| (fieldMask 9 3 ||| (fieldMask 6 3 ||| fieldMask 0 3))) by
    decide]
  simp only [and_or_eq_iff, and_fieldMask_eq_iff, extractLsb'_mode_eq_iff]
  rfl

/-- Bits 5 to 0 are unused in NOT (R58). -/
theorem agree_not_iff : w &&& 0xFFC0#16 = w' &&& 0xFFC0#16 ↔
    opcodeOf w' = opcodeOf w ∧ drOf w' = drOf w ∧ sr1Of w' = sr1Of w := by
  rw [show 0xFFC0#16 = fieldMask 12 4 ||| (fieldMask 9 3 ||| fieldMask 6 3) by decide]
  simp only [and_or_eq_iff, and_fieldMask_eq_iff]
  rfl

/-- Bits 11 to 8 are unused in TRAP (R59). -/
theorem agree_trap_iff : w &&& 0xF0FF#16 = w' &&& 0xF0FF#16 ↔
    opcodeOf w' = opcodeOf w ∧ vectorOf w' = vectorOf w := by
  rw [show 0xF0FF#16 = fieldMask 12 4 ||| fieldMask 0 8 by decide]
  simp only [and_or_eq_iff, and_fieldMask_eq_iff]
  rfl

/-- The opcode alone is used where it is unlisted (R65). -/
theorem agree_unlisted_iff : w &&& 0xF000#16 = w' &&& 0xF000#16 ↔ opcodeOf w' = opcodeOf w := by
  rw [show 0xF000#16 = fieldMask 12 4 by decide, and_fieldMask_eq_iff]
  rfl

theorem matches_iff :
    Matches w i ↔ opcodeOf w = opcode i ∧ (∀ b, mode i = some b → modeOf w = b) ∧ HasFields w i :=
  ⟨fun ⟨ho, hm, hf⟩ => ⟨ho, hm, hf⟩, fun ⟨ho, hm, hf⟩ => ⟨ho, hm, hf⟩⟩

/-- The used bits of an instruction are those that tell its words from all others. -/
theorem agree_usedBits_iff (h : Matches w i) : w &&& usedBits i = w' &&& usedBits i ↔ Matches w' i := by
  obtain ⟨ho, hm, hf⟩ := h
  rw [matches_iff, ← ho]
  cases i with
  | br nzp off =>
    obtain ⟨rfl, rfl⟩ := hf
    exact agree_offset_iff.trans (by simp [mode, HasFields, nzpOf_eq_substring, drOf_eq_substring])
  | ld dr off =>
    obtain ⟨rfl, rfl⟩ := hf
    exact agree_offset_iff.trans (by simp [mode, HasFields])
  | addReg dr sr1 sr2 | andReg dr sr1 sr2 =>
    obtain ⟨rfl, rfl, rfl⟩ := hf
    exact agree_reg_iff.trans (by simp [mode, HasFields, hm false rfl])
  | addImm dr sr1 imm5 | andImm dr sr1 imm5 =>
    obtain ⟨rfl, rfl, rfl⟩ := hf
    exact agree_imm_iff.trans (by simp [mode, HasFields, hm true rfl])
  | not dr sr =>
    obtain ⟨rfl, rfl⟩ := hf
    exact agree_not_iff.trans (by simp [mode, HasFields])
  | trap vector =>
    obtain rfl := hf
    exact agree_trap_iff.trans (by simp [mode, HasFields])
  | illegal0011 | illegal0100 | illegal0110 | illegal0111 | illegal1000 | illegal1010 | illegal1011 | illegal1100
  | illegal1101 | illegal1110 =>
    exact agree_unlisted_iff.trans (by simp [mode, HasFields])

/-- Settles O2: the word read and the word written back stand for the same instruction, so they agree on its
used bits. -/
theorem encodeWritesBackUsedBits : Obligations.EncodeWritesBackUsedBits := fun w =>
  ((agree_usedBits_iff (matches_decode w)).mpr (matches_encode (decode w))).symm

/-- Settles O3: a word that agrees on the used bits of `decode w` stands for that instruction too. -/
theorem unusedBitsAreIgnored : Obligations.UnusedBitsAreIgnored := fun w _ h =>
  decode_eq_of_matches ((agree_usedBits_iff (matches_decode w)).mp h)

/-- Settles O6, word by word. -/
theorem writtenWordsDecode : Obligations.WrittenWordsDecode := by
  unfold Obligations.WrittenWordsDecode
  decide

end Sys2Proof
end

section
/-! PROOFS. No instruction is refused, and the step over a placed word (41_fetch_decode_execute.md R86,
60_exceptions.md R131). -/

namespace Sys2Proof.Machine

variable {s : State} {w : Word}

/-- Every instruction answers a next state: it neither faults nor is refused (41_fetch_decode_execute.md R91). -/
theorem exec_eq_next (i : Instr) (s : State) : ∃ t, exec i s = .next t := by
  cases i with
  | br nzp off =>
    change ∃ t, execBr nzp off s = .next t
    unfold execBr
    split <;> exact ⟨_, rfl⟩
  | ld dr off =>
    by_cases hv : validAddress (effectiveAddress s.pc off)
    · exact ⟨_, execLd_of_valid hv⟩
    · exact ⟨_, execLd_of_invalid hv⟩
  | trap vector =>
    change ∃ t, execTrap vector s = .next t
    unfold execTrap
    split <;> exact ⟨_, rfl⟩
  | addReg | addImm | andReg | andImm | not => exact ⟨_, rfl⟩
  | illegal0011 | illegal0100 | illegal0110 | illegal0111 | illegal1000 | illegal1010 | illegal1011 | illegal1100
  | illegal1101 | illegal1110 => exact ⟨_, rfl⟩

/-- Everything a step can answer. -/
theorem step_answers (s : State) : (∃ e, s.run = .faulted e ∧ step s = .fault e) ∨
    ((∀ e, s.run ≠ .faulted e) ∧ ∃ t, step s = .next t) := by
  cases hr : s.run with
  | idle => exact .inr ⟨nofun, s, step_idle hr⟩
  | halted => exact .inr ⟨nofun, s, step_halted hr⟩
  | faulted e => exact .inl ⟨e, rfl, step_faulted hr⟩
  | running =>
    refine .inr ⟨nofun, ?_⟩
    by_cases hp : s.pc.toNat ≤ 49
    · rw [step_exec hr hp]
      exact exec_eq_next _ _
    · exact ⟨_, step_fetch_fails hr (by omega)⟩

/-- Settles O24, from what a step can answer. -/
theorem stepIsNeverRefused : Obligations.StepIsNeverRefused := by
  intro s
  obtain ⟨e, hr, h⟩ | ⟨hr, t, h⟩ := step_answers s
  · simp [h, hr]
  · simp [h, hr]

/-! ## A placed word -/

theorem step_of_aboutToRun (h : s.AboutToRun w) : step s = exec (decode w) { s with ir := w, pc := s.pc + 1 } := by
  obtain ⟨hr, hp, rfl⟩ := h
  exact step_exec hr hp

/-- Placing a word writes the word at the `pc` it leaves, and of the other elements at most `pc` and the run state
(log 12). -/
theorem aboutToFetch_frame (s : State) (w : Word) :
    (s.aboutToFetch w).mem = s.mem.setWord (s.aboutToFetch w).pc.toNat w ∧ (s.aboutToFetch w).regs = s.regs ∧
      (s.aboutToFetch w).cc = s.cc ∧ (s.aboutToFetch w).out = s.out := by
  unfold State.aboutToFetch
  split <;> exact ⟨rfl, rfl, rfl, rfl⟩

theorem withFetchWord_eq {n : Nat} (s : State) (h : n < 65536) :
    s.withFetchWord 16 n = s.aboutToFetch (BitVec.ofNat 16 n) := by
  unfold State.withFetchWord
  rw [Nat.mod_eq_of_lt (show n < 2 ^ 16 from h)]

theorem decodeTableWord_eq {n : Nat} (h : n < 65536) : decodeTableWord 16 n = some (decode (BitVec.ofNat 16 n)) :=
  if_pos ⟨le_rfl, h⟩

/-- Settles O46: the placed word is about to run, and the placing writes one word. -/
theorem placedWordRunsNext : Obligations.PlacedWordRunsNext := by
  intro s n hwf hn
  rw [withFetchWord_eq s hn]
  obtain ⟨hmem, hregs, hcc, hout⟩ := aboutToFetch_frame s (BitVec.ofNat 16 n)
  obtain ⟨hrun, -⟩ := aboutToFetch_aboutToRun (BitVec.ofNat 16 n) hwf
  exact ⟨fun a ha => by rw [hmem, Memory.word_setWord_ne _ _ ha], hregs, hcc, hout, _, decodeTableWord_eq hn,
    step_of_aboutToRun hrun⟩

end Sys2Proof.Machine
end

section
/-! PROOFS. The operate instructions ADD, AND and NOT in both modes: the result each writes, in every state
(40_datapath_primitives.md R73 to R76, 43_operate.md R99 to R104). -/

namespace Sys2Proof.Machine

/-! ## The immediate operand (30_encoding.md R61) -/

/-- Sign extension keeps the five bits and repeats bit 4 upward. -/
theorem getLsbD_immOperand (imm5 : BitVec 5) {b : Nat} (hb : b < 16) :
    (immOperand imm5).getLsbD b = imm5.getLsbD (min b 4) := by
  unfold immOperand
  rw [BitVec.getLsbD_signExtend, BitVec.msb_eq_getLsbD_last]
  by_cases h : b < 5
  · simp [hb, h, show min b 4 = b by omega]
  · simp [hb, h, show min b 4 = 4 by omega]

theorem toInt_immOperand (imm5 : BitVec 5) : (immOperand imm5).toInt = imm5.toInt :=
  BitVec.toInt_signExtend_of_le (by decide)

/-! ## The datapath -/

/-- The signed view of a sum is the sum of the signed views, up to a multiple of 2^16 (R73). -/
theorem toInt_add_sub_emod (a b : Word) : ((a + b).toInt - (a.toInt + b.toInt)) % 65536 = 0 := by
  rw [BitVec.toInt_add]
  exact Int.emod_eq_zero_of_dvd Int.dvd_bmod_sub_self

theorem getLsbD_aluAnd (a b : Word) (i : Nat) : (aluAnd a b).getLsbD i = (a.getLsbD i && b.getLsbD i) :=
  BitVec.getLsbD_and

theorem getLsbD_aluNot (a : Word) {i : Nat} (hi : i < 16) : (aluNot a).getLsbD i = !a.getLsbD i := by
  unfold aluNot
  simp [hi]

/-- Flipping every bit negates and subtracts one, and cannot overflow (R76). -/
theorem toInt_aluNot (a : Word) : (aluNot a).toInt = -a.toInt - 1 := by
  have ha := a.isLt
  unfold aluNot
  simp only [BitVec.toInt_eq_toNat_cond, BitVec.toNat_not]
  split <;> split <;> omega

/-! ## What each operate instruction writes -/

section
variable (dr sr1 sr2 : RegIdx) (imm5 : BitVec 5) (s : State)

theorem exec_addReg : exec (.addReg dr sr1 sr2) s = .next (s.writeResult dr (s.reg sr1 + s.reg sr2)) := by
  rw [← aluAdd_eq_add]; rfl

theorem exec_addImm : exec (.addImm dr sr1 imm5) s = .next (s.writeResult dr (s.reg sr1 + immOperand imm5)) := by
  rw [← aluAdd_eq_add]; rfl

theorem exec_andReg : exec (.andReg dr sr1 sr2) s = .next (s.writeResult dr (aluAnd (s.reg sr1) (s.reg sr2))) := rfl

theorem exec_andImm :
    exec (.andImm dr sr1 imm5) s = .next (s.writeResult dr (aluAnd (s.reg sr1) (immOperand imm5))) := rfl

theorem exec_not : exec (.not dr sr1) s = .next (s.writeResult dr (aluNot (s.reg sr1))) := rfl

end

@[simp] theorem State.reg_writeResult_same (s : State) (r : RegIdx) (v : Word) : (s.writeResult r v).reg r = v :=
  State.reg_setReg_same s r v

/-- What is written and nothing else, the result being read back from the destination. -/
theorem writeResult_writesOnly_reg (s : State) (dr : RegIdx) (v : Word) :
    s.WritesOnly (s.writeResult dr v) dr ((s.writeResult dr v).reg dr) := by
  rw [State.reg_writeResult_same]
  exact writeResult_writesOnly s dr v

/-! ## The statements -/

/-- Settles O7: both modes write the sum of the bits, whose unsigned and signed views are the sums of the operands'
modulo 2^16. -/
theorem addWritesTheSum : Obligations.AddWritesTheSum := by
  refine ⟨fun dr sr1 sr2 s => ⟨_, exec_addReg dr sr1 sr2 s, writeResult_writesOnly s dr _, ?_⟩,
    fun dr sr1 imm5 s => ⟨_, exec_addImm dr sr1 imm5 s, writeResult_writesOnly s dr _, ?_⟩⟩
  · rw [State.reg_writeResult_same, BitVec.toNat_add]
  · rw [State.reg_writeResult_same, ← toInt_immOperand]
    exact toInt_add_sub_emod _ _

/-- Settles O8: bit by bit, the second operand being a register or the sign-extended immediate. -/
theorem andWritesTheConjunction : Obligations.AndWritesTheConjunction := by
  refine ⟨fun dr sr1 sr2 s => ⟨_, exec_andReg dr sr1 sr2 s, writeResult_writesOnly_reg s dr _, fun b _ => ?_⟩,
    fun dr sr1 imm5 s => ⟨_, exec_andImm dr sr1 imm5 s, writeResult_writesOnly_reg s dr _, fun b hb => ?_⟩⟩
  · rw [State.reg_writeResult_same, getLsbD_aluAnd]
  · rw [State.reg_writeResult_same, getLsbD_aluAnd, getLsbD_immOperand imm5 hb]

/-- Settles O9: the flipped bits and their signed reading, by the two views of `aluNot`. -/
theorem notFlipsEveryBit : Obligations.NotFlipsEveryBit := by
  refine fun dr sr s => ⟨_, exec_not dr sr s, writeResult_writesOnly_reg s dr _, fun b hb => ?_, ?_⟩
  · rw [State.reg_writeResult_same, getLsbD_aluNot _ hb]
  · rw [State.reg_writeResult_same, toInt_aluNot]

end Sys2Proof.Machine
end

section
/-! PROOFS. A step over a fetched word, read from the word's bits: ADD, LD and BR (41_fetch_decode_execute.md R86,
R91). -/

namespace Sys2Proof.Machine

variable {s : State} {w : Word}

/-- Settles O15: inside memory the fetch succeeds with the word at `pc`. -/
theorem stepRunsTheDecodedInstruction : Obligations.StepRunsTheDecodedInstruction := fun _ _ => step_of_aboutToRun

/-! ## ADD -/

/-- Both modes of ADD at once, the mode bit choosing the second operand (30_encoding.md R63, 43_operate.md R99,
R100). -/
theorem exec_decode_add (ho : opcodeOf w = 0b0001#4) (s : State) :
    exec (decode w) s = .next (s.writeResult (drOf w)
      (s.reg (sr1Of w) + if modeOf w then immOperand (imm5Of w) else s.reg (sr2Of w))) := by
  rw [decode_add ho]
  split
  · exact exec_addImm _ _ _ s
  · exact exec_addReg _ _ _ s

/-- Settles O16: the ADD of the word on the fetched state, whose registers are those before the step. -/
theorem stepOverAdd : Obligations.StepOverAdd := fun _ _ h ho =>
  ⟨_, (step_of_aboutToRun h).trans (exec_decode_add ho _), writeResult_writesOnly _ _ _⟩

/-! ## LD -/

/-- Settles O19, by whether the effective address, counted from the incremented `pc`, is valid. -/
theorem stepOverLd : Obligations.StepOverLd := by
  intro s w h ho
  rw [step_of_aboutToRun h, decode_ld ho, exec_ld]
  by_cases hv : validAddress (effectiveAddress (s.pc + 1) (pcOffset9Of w))
  · exact ⟨_, execLd_of_valid hv, (if_pos hv).mpr (writeResult_writesOnly _ _ _)⟩
  · exact ⟨_, execLd_of_invalid hv, (if_neg hv).mpr rfl⟩

/-! ## BR -/

/-- BR writes `pc` at most (42_branch.md R96). -/
theorem exec_br (nzp : CC) (off : BitVec 9) (s : State) :
    exec (.br nzp off) s = .next { s with pc := if branchTaken nzp s.cc then branchTarget s.pc off else s.pc } := by
  change execBr nzp off s = _
  unfold execBr
  split <;> rfl

theorem getLsbD_nzpOf (w : Word) {i : Nat} (hi : i < 3) : (nzpOf w).getLsbD i = w.getLsbD (9 + i) := by
  simp [nzpOf, hi]

/-- The branch test, read from the bits of the word. -/
theorem branchTaken_nzpOf_iff (w : Word) (cc : CC) :
    branchTaken (nzpOf w) cc = true ↔
      (w.getLsbD 11 = true ∧ cc.getLsbD 2 = true) ∨ (w.getLsbD 10 = true ∧ cc.getLsbD 1 = true) ∨
        (w.getLsbD 9 = true ∧ cc.getLsbD 0 = true) := by
  unfold branchTaken
  rw [getLsbD_nzpOf w (by decide), getLsbD_nzpOf w (by decide), getLsbD_nzpOf w (by decide)]
  simp only [Bool.or_eq_true, Bool.and_eq_true, or_assoc]

/-- A step over a BR word, read through the decoder's fields. -/
theorem step_br (h : s.AboutToRun w) (ho : opcodeOf w = 0b0000#4) :
    step s = .next { s with
      ir := w
      pc := if branchTaken (nzpOf w) s.cc then branchTarget (s.pc + 1) (pcOffset9Of w) else s.pc + 1 } := by
  rw [step_of_aboutToRun h, decode_br ho, exec_br]

/-- Settles O20: the step over a BR with the mask's bits taken from the word. -/
theorem stepOverBr : Obligations.StepOverBr := by
  intro s w h ho
  rw [step_br h ho]
  simp only [branchTaken_nzpOf_iff]
  rfl

/-- The offset -1 takes the incremented `pc` back to the branch itself (42_branch.md R98). -/
theorem branchTarget_incr_neg_one (pc : Word) : branchTarget (pc + 1) 0b111111111#9 = pc := by
  have hoff : (0b111111111#9).signExtend 16 = -1 := by decide
  unfold branchTarget
  rw [hoff]
  exact add_neg_cancel_right pc 1

/-- One step of a taken BR with offset -1 writes `ir` and leaves all else, `pc` among it (42_branch.md R98). -/
theorem step_branch_to_itself (h : s.AboutToRun w) (ho : opcodeOf w = 0b0000#4) (hoff : pcOffset9Of w = 0b111111111#9)
    (hm : nzpOf w &&& s.cc ≠ 0b000#3) : step s = .next { s with ir := w } := by
  rw [step_br h ho, hoff, branchTarget_incr_neg_one, if_pos ((branchTaken_iff _ _).mpr hm)]

/-- Settles O47: the first step leaves a state about to run the same BR, which from then on a step answers again. -/
theorem branchToItselfNeverEnds : Obligations.BranchToItselfNeverEnds := by
  intro s w n h ho hoff hm
  have hfirst : step s = .next { s with ir := w } := step_branch_to_itself h ho hoff hm
  have hagain : step { s with ir := w } = .next { s with ir := w } :=
    step_branch_to_itself (s := { s with ir := w }) h ho hoff hm
  rw [run_succ_of_next hfirst, run_of_step_self hagain]

end Sys2Proof.Machine
end

section
/-! PROOFS. BR as an instruction, over mask and flags (42_branch.md R96, R97). -/

namespace Sys2Proof.Machine

/-- Settles O12: the position-by-position test of `exec_br` is the conjunction of mask and flags. -/
theorem brMovesPcWhenAFlagMatches : Obligations.BrMovesPcWhenAFlagMatches := by
  intro nzp off s
  rw [exec_br]
  simp only [branchTaken_iff, branchTarget]

end Sys2Proof.Machine
end

section
/-! PROOFS. A step over a fetched word of AND or NOT, read from the word's bits (43_operate.md R101 to R103). -/

namespace Sys2Proof.Machine

/-- Both modes of AND at once, the mode bit choosing the second operand (30_encoding.md R63, 43_operate.md R101,
R102). -/
theorem exec_decode_and {w : Word} (ho : opcodeOf w = 0b0101#4) (s : State) :
    exec (decode w) s = .next (s.writeResult (drOf w)
      (s.reg (sr1Of w) &&& if modeOf w then immOperand (imm5Of w) else s.reg (sr2Of w))) := by
  rw [decode_and ho]
  split
  · exact exec_andImm _ _ _ s
  · exact exec_andReg _ _ _ s

/-- Settles O17: the AND of the word on the fetched state, whose registers are those before the step. -/
theorem stepOverAnd : Obligations.StepOverAnd := fun _ _ h ho =>
  ⟨_, (step_of_aboutToRun h).trans (exec_decode_and ho _), writeResult_writesOnly _ _ _⟩

/-- The NOT of a word, whatever its six low bits (43_operate.md R103). -/
theorem exec_decode_not {w : Word} (ho : opcodeOf w = 0b1001#4) (s : State) :
    exec (decode w) s = .next (s.writeResult (drOf w) (~~~(s.reg (sr1Of w)))) := by
  rw [decode_not ho]
  exact exec_not _ _ s

/-- Settles O18: the NOT of the word on the fetched state, whose registers are those before the step. -/
theorem stepOverNot : Obligations.StepOverNot := fun _ _ h ho =>
  ⟨_, (step_of_aboutToRun h).trans (exec_decode_not ho _), writeResult_writesOnly _ _ _⟩

end Sys2Proof.Machine
end

section
/-! PROOFS. LD as an instruction: with its effective address inside memory and outside it (44_load.md R106). -/

namespace Sys2Proof.Machine

/-- Settles O10: the two bounds are a valid effective address, so the word there is the result written. -/
theorem ldLoadsTheWord : Obligations.LdLoadsTheWord := by
  intro dr off s hlo hhi
  have hv : validAddress (effectiveAddress s.pc off) := ⟨hlo, hhi⟩
  exact ⟨_, (exec_ld dr off s).trans (execLd_of_valid hv), writeResult_writesOnly s dr _⟩

/-- Settles O11: beyond either bound the effective address is invalid, and the error is all that is written. -/
theorem ldOutsideMemoryRaises : Obligations.LdOutsideMemoryRaises := by
  intro dr off s hout
  have hv : ¬ validAddress (effectiveAddress s.pc off) := by
    unfold effectiveAddress validAddress
    omega
  exact (exec_ld dr off s).trans (execLd_of_invalid hv)

end Sys2Proof.Machine
end

section
/-! PROOFS. TRAP, as an instruction and over a fetched word read from the word's bits (45_trap.md R109 to R112). -/

namespace Sys2Proof.Machine

/-- TRAP always completes: the OUT vector emits, every other one halts (45_trap.md R110, R111). -/
theorem exec_trap (vector : BitVec 8) (s : State) :
    exec (.trap vector) s = .next (if vector = Config.trapOut then s.emit (lowByte (s.reg 0)) else s.halt) := by
  change execTrap vector s = _
  unfold execTrap
  split <;> rfl

/-- Settles O13: emitting writes `out` and halting writes `run`, and neither anything else. -/
theorem trapEmitsOrHalts : Obligations.TrapEmitsOrHalts := exec_trap

/-- Settles O21: the TRAP of the word on the fetched state, whose registers and output are those before the step. -/
theorem stepOverTrap : Obligations.StepOverTrap := by
  intro s w h ho
  rw [step_of_aboutToRun h, decode_trap ho]
  exact exec_trap (vectorOf w) _

end Sys2Proof.Machine
end

section
/-! PROOFS. The host's ports: what `load` answers in each case, the first step of a started program, and what `inspect`
reads outside a run (50_interfaces.md R116 to R121). -/

namespace Sys2Proof.Machine

variable {s : State} {ws : List Word}

/-! ## What `load` answers: one equation per case (50_interfaces.md R116 to R118) -/

theorem load_of_ne_idle (hr : s.run ≠ .idle) : s.load ws = .error .notIdle := if_pos hr

/-- A program of 1 to 49 words passes the test of its length (R117). -/
theorem not_bad_length (h0 : ws ≠ []) (hl : ws.length ≤ 49) : ¬ (ws.length = 0 ∨ Config.progMax < ws.length) :=
  not_or.mpr ⟨mt List.eq_nil_of_length_eq_zero h0, Nat.not_lt.mpr hl⟩

theorem load_of_bad_length (hr : s.run = .idle) (hl : ws.length = 0 ∨ Config.progMax < ws.length) :
    s.load ws = .error .invalidProgramError := by
  unfold State.load
  rw [if_neg (not_not_intro hr), if_pos hl]

theorem load_of_mem_ne_nil (hr : s.run = .idle) (h0 : ws ≠ []) (hl : ws.length ≤ 49) (hm : s.mem ≠ []) :
    s.load ws = .error .secondLoad := by
  unfold State.load
  rw [if_neg (not_not_intro hr), if_neg (not_bad_length h0 hl), if_pos hm]

/-- The accepted load: the words stand from address 0 up in an otherwise zero memory. -/
theorem load_of_mem_eq_nil (hr : s.run = .idle) (h0 : ws ≠ []) (hl : ws.length ≤ 49) (hm : s.mem = []) :
    ∃ m, s.load ws = .ok { s with mem := m } ∧ m.wf = true ∧ ∀ a, m.word a = ws.getD a 0x0000#16 := by
  obtain ⟨m, hplace, hwf, hword⟩ := placeWords_spec ws [] 0 Memory.wf_nil (by simp only [Config.memWords]; omega)
  refine ⟨m, ?_, hwf, fun a => ?_⟩
  · unfold State.load
    rw [if_neg (not_not_intro hr), if_neg (not_bad_length h0 hl), if_neg (not_not_intro hm), hm, hplace]
  · rw [hword a]
    by_cases ha : a < ws.length
    · rw [dif_pos ⟨Nat.zero_le a, ha⟩, List.getD_eq_getElem _ _ ha]; rfl
    · rw [dif_neg (fun h => ha h.2), List.getD_eq_default _ _ (by omega), Memory.word_nil]; rfl

/-- Settles O44: the refusals of `load` in the order in which it tests for them. -/
theorem loadRefusesTheRest : Obligations.LoadRefusesTheRest := by
  refine fun s ws => ⟨load_of_ne_idle, fun hr hbad => load_of_bad_length hr ?_, load_of_mem_ne_nil⟩
  exact hbad.imp List.length_eq_zero_iff.mpr id

/-! ## The first step of a program (50_interfaces.md R119) -/

/-- Settles O43: the reset state is idle with an empty memory, so the load is accepted; started, the machine is about to
run the word at the reset `pc` 0. -/
theorem loadedProgramStartsAtItsFirstWord : Obligations.LoadedProgramStartsAtItsFirstWord := by
  intro w ws hl
  obtain ⟨m, hload, hwf, hword⟩ :=
    load_of_mem_eq_nil (s := State.reset) (ws := w :: ws) rfl (List.cons_ne_nil w ws) (Nat.succ_le_succ hl) rfl
  refine ⟨{ State.reset with mem := m }, hload, hwf, hword, rfl, ?_⟩
  have hrun : ({ State.reset with mem := m } : State).start.AboutToRun w := ⟨rfl, Nat.zero_le 49, hword 0⟩
  exact step_of_aboutToRun hrun

/-! ## What `inspect` reads outside a run (50_interfaces.md R121) -/

theorem inspect_of_ne_running (n : Nat) (hr : s.run ≠ .running) : s.inspect n = s.snapshot := if_neg hr

theorem snapshot_mem_length (s : State) : s.snapshot.mem.length = 50 := by
  simp [State.snapshot]

theorem snapshot_mem_getElem? (s : State) {a : Nat} (ha : a < 50) : s.snapshot.mem[a]? = some (s.mem.word a) := by
  simp [State.snapshot, List.getElem?_range ha]

/-- Settles O45: outside a run an inspection is the snapshot, which copies each element. -/
theorem inspectReadsTheState : Obligations.InspectReadsTheState := by
  intro s n hr
  rw [inspect_of_ne_running n hr]
  exact ⟨fun _ => rfl, snapshot_mem_length s, fun _ => snapshot_mem_getElem? s, rfl, rfl, rfl⟩

end Sys2Proof.Machine
end

section
/-! PROOFS. The unlisted opcodes, as rows of the opcode table and over a fetched word read from the word's bits
(60_exceptions.md R127, R131, R132). -/

namespace Sys2Proof.Machine

/-- The rows that are no instruction are the ten of the unlisted opcodes, and each shares the one raise (30_encoding.md
R65, 60_exceptions.md R127). -/
theorem exec_of_not_wellFormed {i : Instr} (h : ¬ i.WellFormed) (s : State) :
    exec i s = .next (s.raise .unsupportedOpcodeError) := by
  cases i with
  | br | addReg | addImm | ld | andReg | andImm | not | trap => exact absurd rfl h
  | illegal0011 | illegal0100 | illegal0110 | illegal0111 | illegal1000 | illegal1010 | illegal1011 | illegal1100
  | illegal1101 | illegal1110 => rfl

/-- Settles O14: none of the ten rows is an instruction, and the raise writes `run` alone. -/
theorem unlistedOpcodesRaise : Obligations.UnlistedOpcodesRaise := by
  intro s i hi
  have hwf : ¬ i.WellFormed := by
    revert i
    decide
  exact exec_of_not_wellFormed hwf s

/-- Settles O22: the ten opcodes are outside the opcode map, so the word is no instruction, and it raises on the fetched
state, whose `ir` and `pc` are already written. -/
theorem stepOverUnlistedOpcode : Obligations.StepOverUnlistedOpcode := by
  intro s w h ho
  have hu : opcodeOf w ∉ [0b0000#4, 0b0001#4, 0b0010#4, 0b0101#4, 0b1001#4, 0b1111#4] := by
    change opcodeOf w ∈ _ at ho
    revert ho
    generalize opcodeOf w = o
    revert o
    decide
  rw [step_of_aboutToRun h]
  exact exec_of_not_wellFormed (decode_not_wellFormed_of_unlisted hu) _

end Sys2Proof.Machine
end
